-- ==== Sys2Proof/Word.lean ====
section
/-! DEFINITION. The widths of the bit vectors of TRC14 (spec 00_scope.md R5, R7; 30_encoding.md R60). -/

namespace Sys2Proof

/-- A byte: one frame byte, HDOP, BAT (R5, R7). -/
abbrev Byte := BitVec 8

/-- The width of SPD and of the altitude in the frame (R5). -/
abbrev Half := BitVec 16

/-- The width of LAT, LON, ALT, `wdata` and `rdata` (R5, R60). -/
abbrev Word := BitVec 32

/-- One field of the command word: `op` or `arg` (R61). -/
abbrev Nibble := BitVec 4

end Sys2Proof
end

