-- ==== Sys2Proof/Syntax.lean ====
section
/-! DEFINITION. The commands of TRC14, what is driven on its ports, the errors and the response codes
(spec 00_scope.md R11; 30_encoding.md R60 to R66; 60_exceptions.md R141 to R144). -/

namespace Sys2Proof

/-- The six record registers, in the order of their indices 0 to 5 (R20). -/
inductive Reg where
  | lat | lon | alt | hdop | bat | spd
deriving DecidableEq, Repr

/-- A command as the host presents it: the command word and the operand word that travels beside it (R61). -/
structure Command where
  cw : BitVec 8
  wdata : Word
deriving DecidableEq, Repr

/-- What the host drives for one step: the `reset` input and the command port (R60, R170). -/
structure PortInput where
  reset : Bool
  command : Command
deriving DecidableEq, Repr

/-- The eleven commands, one constructor per row of spec/opcode_table.json.
`r` and `a` are the 4-bit field `cw[3:0]` as it stands (R61); which of its values are legal is WellFormed's.
A command that ignores `wdata` carries none (R64). -/
inductive Instr where
  | nop
  | wrr (r : Nibble) (wdata : Word)
  | rdr (r : Nibble)
  | wrb (a : Nibble) (wdata : Word)
  | rdb (a : Nibble)
  | enc
  | dec
  | qlat (wdata : Word)
  | qlon (wdata : Word)
  | qalt (wdata : Word)
  | qspd (wdata : Word)
deriving DecidableEq, Repr

/-- The three errors, each with the `info` its rule names (R141 to R145: these are all the errors there are). -/
inductive CommandError where
  /-- R142; the info is the command word. -/
  | illegalOpcode (cw : BitVec 8)
  /-- R143; the info is the index `cw[3:0]`. -/
  | illegalRegister (index : Nibble)
  /-- R144; the info is the address `cw[3:0]`. -/
  | illegalAddress (address : Nibble)
deriving DecidableEq, Repr

/-- What `resp` can say (R66); its 2-bit codes are `respCode` in Machine/Flags.lean. -/
inductive Resp where
  | ok | illegalOpcode | illegalRegister | illegalAddress
deriving DecidableEq, Repr, Inhabited

/-- What the decoder makes of a command: a command of the opcode map, or the one error that applies (R149). -/
inductive Decoded where
  | legal (i : Instr)
  | illegal (e : CommandError)
deriving DecidableEq, Repr

end Sys2Proof
end

