-- ==== Sys2Proof/Config.lean ====
section
/-! DEFINITION. The parameters of a TRC14 (spec 00_scope.md R5, R6; 92_eei_decisions.md D6, D30) and the
values the spec leaves free (70_reset_and_hazards.md R170; 93_implementation_defined.md U3). -/

namespace Sys2Proof

/-- FRAME_BYTES (R5). -/
def frameBytes : Nat := 14

/-- NREG (R5). -/
def recordRegisters : Nat := 6

/-- LATLON_SCALE, units per degree (R5). -/
def latLonScale : Nat := 100000

/-- The largest value of an open parameter, 2^31 − 1 (R6). -/
def maxDivisor : Nat := 2147483647

/-- An open parameter: an integer in 1 to 2^31 − 1. "A value outside that range is not a TRC14" (R6):
such a value cannot be written here (U6). -/
structure Divisor where
  val : Nat
  pos : 1 ≤ val
  le : val ≤ maxDivisor
deriving DecidableEq, Repr

/-- The three open parameters (R6). -/
structure Config where
  degDiv : Divisor
  altDiv : Divisor
  spdDiv : Divisor
deriving DecidableEq, Repr

/-- Every number gives a legal divisor, and every legal divisor comes from some number. -/
def Divisor.ofSeed (n : Nat) : Divisor :=
  ⟨n % maxDivisor + 1, Nat.le_add_left 1 _, Nat.mod_lt n (by decide)⟩

/-- The spec fixes no value of DEG_DIV (R6, D30): nothing is known of this number. Log entry 2. -/
opaque Config.degSeed : Nat

/-- The spec fixes no value of ALT_DIV (R6, D30): nothing is known of this number. Log entry 2. -/
opaque Config.altSeed : Nat

/-- The spec fixes no value of SPD_DIV (R6, D30): nothing is known of this number. Log entry 2. -/
opaque Config.spdSeed : Nat

/-- The parameters of the block that `State.reset` is a state of: some legal values, unknown ones. -/
def Config.built : Config where
  degDiv := .ofSeed Config.degSeed
  altDiv := .ofSeed Config.altSeed
  spdDiv := .ofSeed Config.spdSeed

/-- What `resp` shows for the k-th reset: unspecified (R170, U3 "any value"). Log entry 4. -/
opaque Config.freeResp : Nat → Resp

/-- What `rdata` shows for the k-th reset: unspecified (R170, U3 "any value"). Log entry 4. -/
opaque Config.freeRdata : Nat → Word

end Sys2Proof
end

