-- ==== Sys2Proof/Machine/State.lean ====
section
/-! DEFINITION. The state of TRC14 (spec 10_state.md R20, R30), the model's own fields for the ports and the
parameters, the reset state (70_reset_and_hazards.md R171), and the reasons a step can stop. -/

namespace Sys2Proof.Machine

/-- The frame buffer as (address, byte) pairs; its canonical form is `Memory.wf`. -/
abbrev Memory := List Host.Cell

/-- The state. "The state of TRC14 is exactly two things: the record register file and the frame buffer" (R20);
the fields after `frame` are the model's own (log entries 1, 2, 4, 11). -/
structure State where
  /-- x[0] (R20, R24). -/
  lat : Word
  /-- x[1] (R20, R24). -/
  lon : Word
  /-- x[2] (R20, R25). -/
  alt : Word
  /-- x[3] (R20, R26). -/
  hdop : Byte
  /-- x[4] (R20, R26). -/
  bat : Byte
  /-- x[5] (R20, R26). -/
  spd : Half
  /-- FB[0] to FB[13] (R30). -/
  frame : Memory
  /-- DEG_DIV, ALT_DIV, SPD_DIV of this block (R6, R21): no command changes them. -/
  config : Config
  /-- The output `resp` of the last step (R60, R66). -/
  resp : Resp
  /-- The output `rdata` of the last step (R60, R65). -/
  rdata : Word
  /-- What the host presents in the coming steps, oldest first (R11, R60). -/
  pending : List PortInput
  /-- How many free values have been used: the index of the next one (log entry 4). -/
  freeCount : Nat
deriving DecidableEq, Repr

/-- Why a step can stop, and the three faults of a command, each naming the command word (R146, U1) and the `info` of its
rule (R141). No step stops with one of the three: the step that meets such a word answers its code and goes on, and the
fault is its record beside that step (`State.commandFault`, `faults`). Safe: no run is cut short. Log entry 5. -/
inductive Fault where
  /-- Raised by `step` alone, when the host presents nothing: the run has ended (R183). The block itself holds
  its state (R156). Safe: no claim about a further step can be made. Log entry 6. -/
  | noCommand
  /-- Recorded by `State.commandFault` of a word that selects no command (R142); the info is the word. Safe: no stop. -/
  | illegalOpcode (cw : BitVec 8)
  /-- Recorded by `State.commandFault` of a word whose index names no register of its command (R143); the info is the
  index. Safe: no stop. -/
  | illegalRegister (cw : BitVec 8) (index : Nibble)
  /-- Recorded by `State.commandFault` of a word whose address holds nothing (R144); the info is the address. Safe: no
  stop. -/
  | illegalAddress (cw : BitVec 8) (address : Nibble)
deriving DecidableEq, Repr

/-- Why an instruction can be without a meaning. -/
inductive Refusal where
  /-- Raised by an arm of `exec` that has no meaning yet (none is left). Safe: nothing is claimed of it. -/
  | notModelled (mnemonic : String)
deriving DecidableEq, Repr

/-- "Every bit of state is 0 after reset" (R171). The parameters are unknown ones (R6), the outputs show unspecified
values (R170, U3), nothing is presented yet, and one free value has been used. Log entries 1, 2, 3, 4. -/
def State.reset : State where
  lat := 0
  lon := 0
  alt := 0
  hdop := 0
  bat := 0
  spd := 0
  frame := []
  config := Config.built
  resp := Config.freeResp 0
  rdata := Config.freeRdata 0
  pending := []
  freeCount := 1

end Sys2Proof.Machine
end

