-- ==== Sys2Proof/Machine/Flags.lean ====
section
/-! DEFINITION. TRC14 has no flags, no condition codes and no status register (spec 10_state.md R28, R29); the one
status report of a command is the response code (30_encoding.md R66). The fault that names an
erroneous command is the model's record of it (60_exceptions.md R141, R146). -/

namespace Sys2Proof.Machine

/-- The 2-bit code on `resp` (R66). -/
def respCode : Resp → BitVec 2
  | .ok => 0b00
  | .illegalOpcode => 0b01
  | .illegalRegister => 0b10
  | .illegalAddress => 0b11

/-- The response an error is answered with (R142, R143, R144). -/
def errorResp : CommandError → Resp
  | .illegalOpcode _ => .illegalOpcode
  | .illegalRegister _ => .illegalRegister
  | .illegalAddress _ => .illegalAddress

/-- The fault that names a command word and the error it is (R146, U1). -/
def errorFault (cw : BitVec 8) : CommandError → Fault
  | .illegalOpcode _ => .illegalOpcode cw
  | .illegalRegister index => .illegalRegister cw index
  | .illegalAddress address => .illegalAddress cw address

/-- The command word a fault names; the end of a run names none. -/
def Fault.command : Fault → Option (BitVec 8)
  | .noCommand => none
  | .illegalOpcode cw => some cw
  | .illegalRegister cw _ => some cw
  | .illegalAddress cw _ => some cw

end Sys2Proof.Machine
end

