-- ==== Sys2Proof/Machine/Memory.lean ====
section
/-! DEFINITION. The frame buffer: one byte, and the little-endian accesses built from it
(spec 00_scope.md R10; 10_state.md R30, R31; 20_memory.md R40, R41). -/

namespace Sys2Proof.Machine

/-- What an unlisted address reads as: the reset contents (R171). Log entry 7. -/
def Memory.unlisted : Byte := 0

/-- The canonical form: addresses strictly rising, each one of the 14 that exist (R40), no byte listed that an
unlisted address reads as. -/
abbrev Memory.wf (m : Memory) : Prop :=
  m.Pairwise (fun c d => c.1 < d.1) ∧ ∀ c ∈ m, c.1 < frameBytes ∧ c.2 ≠ Memory.unlisted

/-- `FB[a]` (R10). -/
def Memory.read : Memory → Nat → Byte
  | [], _ => Memory.unlisted
  | (k, v) :: m, a => if k = a then v else Memory.read m a

/-- A cell put where its address belongs. -/
def Memory.insert : Memory → Nat → Byte → Memory
  | [], a, v => [(a, v)]
  | (k, w) :: m, a, v => if a < k then (a, v) :: (k, w) :: m else (k, w) :: Memory.insert m a v

/-- `FB[a] <- v` (R10), in canonical form. -/
def Memory.write (m : Memory) (a : Nat) (v : Byte) : Memory :=
  let others : Memory := m.filter (fun c => c.1 ≠ a)
  if v = Memory.unlisted then others else Memory.insert others a v

/-- `MemRead(a, n)`: `FB[a+n−1] : ... : FB[a+1] : FB[a]` (R10). -/
def Memory.readLE (m : Memory) (a : Nat) : (n : Nat) → BitVec (8 * n)
  | 0 => 0#0
  | n + 1 => (Memory.readLE m (a + 1) n ++ m.read a : BitVec (8 * n + 8))

/-- `MemWrite(a, n, v)`: `FB[a+k] <- v[8k+7:8k]` for k = 0 to n−1 (R10). -/
def Memory.writeLE {w : Nat} (m : Memory) (a : Nat) : Nat → BitVec w → Memory
  | 0, _ => m
  | n + 1, v => (Memory.writeLE m a n v).write (a + n) (v.extractLsb' (8 * n) 8)

/-- One byte of the frame buffer of a state. -/
def State.frameByte (s : State) (a : Nat) : Byte := s.frame.read a

/-- The output `frame`: `frame[8a+7:8a] = FB[a]` for a = 0 to 13 (R31). Log entry 12. -/
def State.framePort (s : State) : BitVec 112 := s.frame.readLE 0 14

end Sys2Proof.Machine
end

