-- ==== Sys2Proof/Machine/Operands.lean ====
section
/-! DEFINITION. Numbers and widths (spec 00_scope.md R7 to R9), register operands (10_state.md R20, R22) and the
form each command gives its operand and its result (30_encoding.md R64, R65). Log entry 14. -/

namespace Sys2Proof.Machine

/-- `uint(v)` (R7). -/
abbrev uint {n : Nat} (v : BitVec n) : Nat := v.toNat

/-- `sint(v)`: two's complement (R7). -/
abbrev sint {n : Nat} (v : BitVec n) : Int := v.toInt

/-- `bits_N(z)`: wraps modulo 2^N, never saturates (R7). -/
abbrev bits (n : Nat) (z : Int) : BitVec n := BitVec.ofInt n z

/-- `sext_N(v)` (R8). -/
abbrev sext {w : Nat} (n : Nat) (v : BitVec w) : BitVec n := v.signExtend n

/-- `zext_N(v)` (R8). -/
abbrev zext {w : Nat} (n : Nat) (v : BitVec w) : BitVec n := v.setWidth n

/-- `trunc_N(v) = v[N−1:0]` (R8). -/
abbrev trunc {w : Nat} (n : Nat) (v : BitVec w) : BitVec n := v.setWidth n

/-- `tdiv(a, d)`: `floor(a / d)` when `a ≥ 0`, `−floor((−a) / d)` when `a < 0` (R9). -/
def tdiv (a : Int) (d : Nat) : Int :=
  if 0 ≤ a then a / d else -(-a / d)

/-- The register at an index; 6 to 15 name none (R20, R22). -/
def regOfIndex (r : Nibble) : Option Reg :=
  match r.toNat with
  | 0 => some .lat
  | 1 => some .lon
  | 2 => some .alt
  | 3 => some .hdop
  | 4 => some .bat
  | 5 => some .spd
  | _ => none

/-- The index of a register (R20). -/
def regIndex : Reg → Nibble
  | .lat => 0
  | .lon => 1
  | .alt => 2
  | .hdop => 3
  | .bat => 4
  | .spd => 5

/-- The width of a register (R5, R20). -/
def regWidth : Reg → Nat
  | .lat => 32
  | .lon => 32
  | .alt => 32
  | .hdop => 8
  | .bat => 8
  | .spd => 16

/-- The frame address a field names; 14 and 15 name none (R40). -/
def frameAddress (a : Nibble) : Option Nat :=
  if a.toNat < frameBytes then some a.toNat else none

/-- The value WRR writes: the low bits of `wdata`, as many as the register has (R64, R121). -/
def registerOperand (r : Reg) (wdata : Word) : BitVec (regWidth r) := trunc (regWidth r) wdata

/-- The byte WRB writes: `wdata[7:0]` (R64, R131). -/
def byteOperand (wdata : Word) : Byte := trunc 8 wdata

/-- What QLAT, QLON and QALT write: the operand read as signed, divided rounding toward zero (R64, R101 to R103). -/
def quantiseSigned (d : Divisor) (wdata : Word) : Word := bits 32 (tdiv (sint wdata) d.val)

/-- What QSPD writes: the operand read as unsigned, divided, the low 16 bits kept (R64, R104). -/
def quantiseUnsigned (d : Divisor) (wdata : Word) : Half := bits 16 (tdiv (uint wdata) d.val)

end Sys2Proof.Machine
end

