-- ==== Sys2Proof/Machine/Ops.lean ====
section
/-! DEFINITION. The named operations the meanings are written in: a record register, the response of a command,
an error, a reset (spec 00_scope.md R10; 60_exceptions.md R141; 70_reset_and_hazards.md R170). -/

namespace Sys2Proof.Machine

/-- `x[r]` at its own width (R10). -/
def State.reg (s : State) : (r : Reg) → BitVec (regWidth r)
  | .lat => s.lat
  | .lon => s.lon
  | .alt => s.alt
  | .hdop => s.hdop
  | .bat => s.bat
  | .spd => s.spd

/-- `x[r] <- v` (R10). -/
def State.setReg (s : State) : (r : Reg) → BitVec (regWidth r) → State
  | .lat, v => { s with lat := v }
  | .lon, v => { s with lon := v }
  | .alt, v => { s with alt := v }
  | .hdop, v => { s with hdop := v }
  | .bat, v => { s with bat := v }
  | .spd, v => { s with spd := v }

/-- `FB[a] <- v` (R10). -/
def State.setFrameByte (s : State) (a : Nat) (v : Byte) : State :=
  { s with frame := s.frame.write a v }

/-- The two response outputs of a step (R10, R60). -/
def State.respond (s : State) (r : Resp) (d : Word) : State :=
  { s with resp := r, rdata := d }

/-- `resp <- OK ; rdata <- d`: how every legal command ends (R65, R66). -/
def State.answer (s : State) (d : Word) : State := s.respond .ok d

/-- `raise <Error>(info)`, the one way an error is taken: "`resp` takes the error's code, `rdata` is 0x00000000, and
the state after the step equals the state before it, bit for bit"; nothing is saved and nothing is latched (R141,
R147). There is no return from it (R147). It is a next state, since the block accepts the next command (R146);
log entry 5. -/
def State.raise (s : State) (e : CommandError) : State := s.respond (errorResp e) 0

/-- The reset event: the reset state whatever the current state is (R170). The parameters of the block and what the
host will present stay; the outputs show free values (U3). -/
def State.takeReset (s : State) : State :=
  { State.reset with
    config := s.config
    pending := s.pending
    resp := Config.freeResp s.freeCount
    rdata := Config.freeRdata s.freeCount
    freeCount := s.freeCount + 1 }

end Sys2Proof.Machine
end

