-- ==== Sys2Proof/Machine/Codec.lean ====
section
/-! DEFINITION. ENC and DEC (spec 40_codec_enc_dec.md R80, R85, R88; the layout is 20_memory.md R44). -/

namespace Sys2Proof.Machine

/-- The frame buffer ENC leaves (R85): six stores, all reading the record as it was. -/
def encodedFrame (s : State) : Memory :=
  (((((s.frame.writeLE 0 4 s.lat).writeLE 4 4 s.lon).writeLE 8 2 (trunc 16 s.alt)).writeLE 10 1 s.hdop).writeLE
    11 1 s.bat).writeLE 12 2 s.spd

/-- The record DEC leaves (R88), every register from one and the same frame buffer. -/
def decodedRecord (s : State) : State :=
  { s with
    lat := s.frame.readLE 0 4
    lon := s.frame.readLE 4 4
    alt := sext 32 (s.frame.readLE 8 2)
    hdop := s.frame.readLE 10 1
    bat := s.frame.readLE 11 1
    spd := s.frame.readLE 12 2 }

/-- ENC (R85). -/
def execEnc (s : State) : Host.Outcome State Fault Refusal :=
  .next (State.answer { s with frame := encodedFrame s } 0)

/-- DEC (R88). -/
def execDec (s : State) : Host.Outcome State Fault Refusal :=
  .next ((decodedRecord s).answer 0)

end Sys2Proof.Machine
end

