-- ==== Sys2Proof/Machine/FrameAccess.lean ====
section
/-! DEFINITION. NOP, WRB and RDB (spec 43_frame_access_nop.md R131 to R133). -/

namespace Sys2Proof.Machine

/-- NOP (R133): "No state changes", OK, `rdata` 0. -/
def execNop (s : State) : Host.Outcome State Fault Refusal := .next (s.answer 0)

/-- WRB a (R131): `FB[a] <- wdata[7:0]`. -/
def execWrb (a : Nibble) (wdata : Word) (s : State) : Host.Outcome State Fault Refusal :=
  match frameAddress a with
  | none => .next (s.raise (.illegalAddress a))
  | some k => .next ((s.setFrameByte k (byteOperand wdata)).answer 0)

/-- RDB a (R132): `rdata <- zext_32(FB[a])`. -/
def execRdb (a : Nibble) (s : State) : Host.Outcome State Fault Refusal :=
  match frameAddress a with
  | none => .next (s.raise (.illegalAddress a))
  | some k => .next (s.answer (zext 32 (s.frameByte k)))

end Sys2Proof.Machine
end

