-- ==== Sys2Proof/Machine/Quantise.lean ====
section
/-! DEFINITION. QLAT, QLON, QALT and QSPD (spec 41_quantize.md R101 to R104). -/

namespace Sys2Proof.Machine

/-- QLAT (R101): `x[LAT] <- bits_32(tdiv(sint(wdata), DEG_DIV))`. -/
def execQlat (wdata : Word) (s : State) : Host.Outcome State Fault Refusal :=
  .next ((s.setReg .lat (quantiseSigned s.config.degDiv wdata)).answer 0)

/-- QLON (R102): `x[LON] <- bits_32(tdiv(sint(wdata), DEG_DIV))`. -/
def execQlon (wdata : Word) (s : State) : Host.Outcome State Fault Refusal :=
  .next ((s.setReg .lon (quantiseSigned s.config.degDiv wdata)).answer 0)

/-- QALT (R103): `x[ALT] <- bits_32(tdiv(sint(wdata), ALT_DIV))`. -/
def execQalt (wdata : Word) (s : State) : Host.Outcome State Fault Refusal :=
  .next ((s.setReg .alt (quantiseSigned s.config.altDiv wdata)).answer 0)

/-- QSPD (R104): `x[SPD] <- bits_16(tdiv(uint(wdata), SPD_DIV))`. -/
def execQspd (wdata : Word) (s : State) : Host.Outcome State Fault Refusal :=
  .next ((s.setReg .spd (quantiseUnsigned s.config.spdDiv wdata)).answer 0)

end Sys2Proof.Machine
end

