-- ==== Sys2Proof/Machine/RecordAccess.lean ====
section
/-! DEFINITION. WRR and RDR (spec 42_record_access.md R121, R122). The index is tested as
their pseudocode has it, though the decoder has tested it already (log entry 9). -/

namespace Sys2Proof.Machine

/-- WRR r (R121): the low bits of `wdata` into register r. -/
def execWrr (r : Nibble) (wdata : Word) (s : State) : Host.Outcome State Fault Refusal :=
  match regOfIndex r with
  | none => .next (s.raise (.illegalRegister r))
  | some x => .next ((s.setReg x (registerOperand x wdata)).answer 0)

/-- RDR r (R122): register r, zero-extended where it is narrow. -/
def execRdr (r : Nibble) (s : State) : Host.Outcome State Fault Refusal :=
  match regOfIndex r with
  | none => .next (s.raise (.illegalRegister r))
  | some x => .next (s.answer (zext 32 (s.reg x)))

end Sys2Proof.Machine
end

