-- ==== Sys2Proof/Machine/Dispatch.lean ====
section
/-! DEFINITION. One arm per command of the opcode map (spec 30_encoding.md R63). -/

namespace Sys2Proof.Machine

/-- The meaning of each command. -/
def exec (i : Instr) (s : State) : Host.Outcome State Fault Refusal :=
  match i with
  | .nop => Sys2Proof.Machine.execNop s
  | .wrr r wdata => Sys2Proof.Machine.execWrr r wdata s
  | .rdr r => Sys2Proof.Machine.execRdr r s
  | .wrb a wdata => Sys2Proof.Machine.execWrb a wdata s
  | .rdb a => Sys2Proof.Machine.execRdb a s
  | .enc => Sys2Proof.Machine.execEnc s
  | .dec => Sys2Proof.Machine.execDec s
  | .qlat wdata => Sys2Proof.Machine.execQlat wdata s
  | .qlon wdata => Sys2Proof.Machine.execQlon wdata s
  | .qalt wdata => Sys2Proof.Machine.execQalt wdata s
  | .qspd wdata => Sys2Proof.Machine.execQspd wdata s

end Sys2Proof.Machine
end

