-- ==== Sys2Proof/WellFormed.lean ====
section
/-! DEFINITION. Which instructions have a command word of the opcode map (spec 30_encoding.md R63). -/

namespace Sys2Proof

/-- A register index names a register (R22: "Indices 6 to 15 of the 4-bit index field name no register"). -/
def legalIndex (r : Nibble) : Bool := decide (r.toNat < recordRegisters)

/-- A frame address names a byte (R40: "Addresses 14 and 15 hold nothing"). -/
def legalAddress (a : Nibble) : Bool := decide (a.toNat < frameBytes)

/-- The legal `arg` of each command (R63). -/
def Instr.wellFormed : Instr → Bool
  | .nop => true
  | .wrr r _ => legalIndex r
  | .rdr r => legalIndex r
  | .wrb a _ => legalAddress a
  | .rdb a => legalAddress a
  | .enc => true
  | .dec => true
  | .qlat _ => true
  | .qlon _ => true
  | .qalt _ => true
  | .qspd _ => true

end Sys2Proof
end

