-- ==== Sys2Proof/Decode.lean ====
section
/-! DEFINITION. The decoder and, after it, the encoder (spec 30_encoding.md R61 to R67; 60_exceptions.md R142 to R145, R149). -/

namespace Sys2Proof

/-- `op = cw[7:4]` (R61). -/
def opField (cw : BitVec 8) : Nibble := cw.extractLsb' 4 4

/-- `arg = cw[3:0]` (R61). -/
def argField (cw : BitVec 8) : Nibble := cw.extractLsb' 0 4

/-- A command whose `arg` must be 0 (R63: NOP, ENC, DEC); any other `arg` is IllegalOpcode (R142). -/
def decodePlain (c : Command) (i : Instr) : Decoded :=
  if argField c.cw = 0 then .legal i else .illegal (.illegalOpcode c.cw)

/-- A command whose `arg` is a register index; 6 to 15 is IllegalRegister (R143). -/
def decodeIndexed (c : Command) (i : Instr) : Decoded :=
  if legalIndex (argField c.cw) then .legal i else .illegal (.illegalRegister (argField c.cw))

/-- A command whose `arg` is a frame address; 14 and 15 is IllegalAddress (R144). -/
def decodeAddressed (c : Command) (i : Instr) : Decoded :=
  if legalAddress (argField c.cw) then .legal i else .illegal (.illegalAddress (argField c.cw))

/-- `op` 0x7: `arg` is the index of the register written; 3, 4 and 6 to 15 is IllegalRegister (R105, R143). -/
def decodeQuantise (c : Command) : Decoded :=
  if argField c.cw = 0 then .legal (.qlat c.wdata)
  else if argField c.cw = 1 then .legal (.qlon c.wdata)
  else if argField c.cw = 2 then .legal (.qalt c.wdata)
  else if argField c.cw = 5 then .legal (.qspd c.wdata)
  else .illegal (.illegalRegister (argField c.cw))

/-- The opcode map (R63). "`op` first; if `op` selects no command, IllegalOpcode whatever `arg` is;
otherwise `arg` is checked against the command's legal set" (R149). -/
def decode (c : Command) : Decoded :=
  match (opField c.cw).toNat with
  | 0x0 => decodePlain c .nop
  | 0x1 => decodeIndexed c (.wrr (argField c.cw) c.wdata)
  | 0x2 => decodeIndexed c (.rdr (argField c.cw))
  | 0x3 => decodeAddressed c (.wrb (argField c.cw) c.wdata)
  | 0x4 => decodeAddressed c (.rdb (argField c.cw))
  | 0x5 => decodePlain c .enc
  | 0x6 => decodePlain c .dec
  | 0x7 => decodeQuantise c
  | _ => .illegal (.illegalOpcode c.cw)

/-- A command word from its two fields (R61). -/
def commandWord (op arg : Nibble) : BitVec 8 := op ++ arg

/-- The words of an instruction (R61, R63). A command that ignores `wdata` is written with `wdata` 0 (R68). -/
def encode : Instr → Command
  | .nop => ⟨commandWord 0x0 0, 0⟩
  | .wrr r w => ⟨commandWord 0x1 r, w⟩
  | .rdr r => ⟨commandWord 0x2 r, 0⟩
  | .wrb a w => ⟨commandWord 0x3 a, w⟩
  | .rdb a => ⟨commandWord 0x4 a, 0⟩
  | .enc => ⟨commandWord 0x5 0, 0⟩
  | .dec => ⟨commandWord 0x6 0, 0⟩
  | .qlat w => ⟨commandWord 0x7 0, w⟩
  | .qlon w => ⟨commandWord 0x7 1, w⟩
  | .qalt w => ⟨commandWord 0x7 2, w⟩
  | .qspd w => ⟨commandWord 0x7 5, w⟩

/-- The command whose bits are `w`, numbered with the command word lowest: `cw` is bits 7..0 and the operand
word bits 39..8, each bit at or above `nbits` being 0. spec/opcode_table.json gives a row the 8 bits of `cw` alone.
DESIGN CHOICE, log entry 8. -/
def commandOfTableWord (nbits w : Nat) : Command :=
  let bits := w % 2 ^ nbits
  ⟨BitVec.ofNat 8 bits, BitVec.ofNat 32 (bits / 2 ^ 8)⟩

/-- The instruction the decoder reads from an opcode-table word. -/
def decodeTableWord (nbits w : Nat) : Option Instr :=
  match decode (commandOfTableWord nbits w) with
  | .legal i => some i
  | .illegal _ => none

end Sys2Proof
end

