-- ==== Sys2Proof/Machine/Port.lean ====
section
/-! DEFINITION. The command port: what a step takes from it, and what an opcode-table word stands for on it
(spec 00_scope.md R11; 30_encoding.md R60). -/

namespace Sys2Proof.Machine

/-- The state in which the command at the head of `pending` runs: that command is no longer to come. -/
def State.afterFetch (s : State) : State := { s with pending := s.pending.tail }

/-- A command on the port with `reset` low. -/
def commandInput (c : Command) : PortInput := ⟨false, c⟩

end Sys2Proof.Machine
end

