-- ==== Sys2Proof/Machine/Step.lean ====
section
/-! DEFINITION. One step: one command, executed atomically (spec 00_scope.md R11; 60_exceptions.md R141, R149;
70_reset_and_hazards.md R170, R183). -/

namespace Sys2Proof.Machine

/-- One step. Nothing presented: the run has ended (R183). Reset has priority over the command presented with it
(R149, R170). A command word outside the opcode map is answered with its error (R141). -/
def step (s : State) : Host.Outcome State Fault Refusal :=
  match s.pending with
  | [] => .fault .noCommand
  | t :: _ =>
    if t.reset then .next s.afterFetch.takeReset
    else
      match decode t.command with
      | .legal i => exec i s.afterFetch
      | .illegal e => .next (s.afterFetch.raise e)

/-- The command of an opcode-table word presented next, before what the host presents already. -/
def State.withFetchWord (s : State) (nbits w : Nat) : State :=
  { s with pending := commandInput (commandOfTableWord nbits w) :: s.pending }

end Sys2Proof.Machine
end

