-- ==== Sys2Proof/Machine/Assembler.lean ====
section
/-! DEFINITION. The assembler: lines, what each assembles to, the pseudo-instructions, and reading a line of text
(spec 30_encoding.md R68, R69). -/

namespace Sys2Proof.Machine

/-- One assembler line, its operands already checked (R68). -/
inductive AsmLine where
  | nop
  | wrr (reg : Reg) (value : Int)
  | rdr (reg : Reg)
  | wrb (addr : Fin 14) (value : Int)
  | rdb (addr : Fin 14)
  | enc
  | dec
  | qlat (value : Int)
  | qlon (value : Int)
  | qalt (value : Int)
  | qspd (value : Int)
deriving DecidableEq, Repr

/-- The table of R68: each line as the pair (`cw`, `wdata`). -/
def assemble : AsmLine → Command
  | .nop => ⟨0x00, 0⟩
  | .wrr reg value => ⟨0x10 + zext 8 (regIndex reg), bits 32 value⟩
  | .rdr reg => ⟨0x20 + zext 8 (regIndex reg), 0⟩
  | .wrb addr value => ⟨0x30 + BitVec.ofNat 8 addr.val, bits 32 value⟩
  | .rdb addr => ⟨0x40 + BitVec.ofNat 8 addr.val, 0⟩
  | .enc => ⟨0x50, 0⟩
  | .dec => ⟨0x60, 0⟩
  | .qlat value => ⟨0x70, bits 32 value⟩
  | .qlon value => ⟨0x71, bits 32 value⟩
  | .qalt value => ⟨0x72, bits 32 value⟩
  | .qspd value => ⟨0x75, bits 32 value⟩

/-- The instruction a line names. -/
def AsmLine.instr : AsmLine → Instr
  | .nop => .nop
  | .wrr reg value => .wrr (regIndex reg) (bits 32 value)
  | .rdr reg => .rdr (regIndex reg)
  | .wrb addr value => .wrb (BitVec.ofNat 4 addr.val) (bits 32 value)
  | .rdb addr => .rdb (BitVec.ofNat 4 addr.val)
  | .enc => .enc
  | .dec => .dec
  | .qlat value => .qlat (bits 32 value)
  | .qlon value => .qlon (bits 32 value)
  | .qalt value => .qalt (bits 32 value)
  | .qspd value => .qspd (bits 32 value)

/-- The four pseudo-instructions (R69). -/
inductive Pseudo where
  | ldrec (lat lon alt hdop bat spd : Int)
  | rdrec
  | ldfrm (values : Vector Int 14)
  | rdfrm
deriving DecidableEq, Repr

/-- "Each expands to the listed commands in the listed order" (R69). -/
def Pseudo.expand : Pseudo → List AsmLine
  | .ldrec lat lon alt hdop bat spd =>
    [.wrr .lat lat, .wrr .lon lon, .wrr .alt alt, .wrr .hdop hdop, .wrr .bat bat, .wrr .spd spd]
  | .rdrec => [.rdr .lat, .rdr .lon, .rdr .alt, .rdr .hdop, .rdr .bat, .rdr .spd]
  | .ldfrm values => (List.finRange 14).map (fun a => .wrb a values[a])
  | .rdfrm => (List.finRange 14).map .rdb

/-- The commands of a pseudo-instruction. -/
def Pseudo.commands (p : Pseudo) : List Command := p.expand.map assemble

/-! Reading a line of text. The text is a list of characters; spaces and tabs may stand around a word and an operand.
Capitals are as R68 writes them. Log entry 13. -/

/-- A space or a tab. -/
def isBlank (c : Char) : Bool := c == ' ' || c == '\t'

/-- The text without blanks at either end. -/
def trimBlanks (t : List Char) : List Char := ((t.dropWhile isBlank).reverse.dropWhile isBlank).reverse

/-- The value of one digit in a base up to 16; a hexadecimal letter may be small or capital. -/
def digitValue (base : Nat) (c : Char) : Option Nat :=
  let n := c.toNat
  let v :=
    if 48 ≤ n ∧ n ≤ 57 then n - 48
    else if 65 ≤ n ∧ n ≤ 70 then n - 55
    else if 97 ≤ n ∧ n ≤ 102 then n - 87
    else base
  if v < base then some v else none

/-- Digits read from the left, `acc` being the value of those before. -/
def digitsValue (base : Nat) : Nat → List Char → Option Nat
  | acc, [] => some acc
  | acc, c :: cs =>
    match digitValue base c with
    | some v => digitsValue base (base * acc + v) cs
    | none => none

/-- An unsigned number in a base: at least one digit. -/
def readNat (base : Nat) (t : List Char) : Option Nat := if t = [] then none else digitsValue base 0 t

/-- "a decimal integer, possibly negative, or a `0x` hexadecimal number" (R68). -/
def readValue (t : List Char) : Option Int :=
  match t with
  | '0' :: 'x' :: hex => (readNat 16 hex).map Int.ofNat
  | '-' :: dec => (readNat 10 dec).map (fun n => -(n : Int))
  | dec => (readNat 10 dec).map Int.ofNat

/-- "a name (LAT, LON, ALT, HDOP, BAT, SPD) or its index 0 to 5" (R68). -/
def readReg (t : List Char) : Option Reg :=
  match t with
  | ['L', 'A', 'T'] => some .lat
  | ['L', 'O', 'N'] => some .lon
  | ['A', 'L', 'T'] => some .alt
  | ['H', 'D', 'O', 'P'] => some .hdop
  | ['B', 'A', 'T'] => some .bat
  | ['S', 'P', 'D'] => some .spd
  | _ => (readNat 10 t).bind (fun n => if n < recordRegisters then regOfIndex (BitVec.ofNat 4 n) else none)

/-- "a decimal number 0 to 13" (R68). -/
def readAddress (t : List Char) : Option (Fin 14) :=
  (readNat 10 t).bind (fun n => if h : n < 14 then some ⟨n, h⟩ else none)

/-- The operands of a line: its parts between commas, without blanks around them; none where there is no text. -/
def splitOperands (t : List Char) : List (List Char) :=
  if trimBlanks t = [] then [] else (t.splitOn ',').map trimBlanks

/-- Every text read as a value, or none. -/
def readValues (ts : List (List Char)) : Option (List Int) := ts.mapM readValue

/-- A pseudo-instruction that loads values: LDREC takes six, LDFRM fourteen (R69). -/
def loadPseudo (values : List Int) : Option Pseudo :=
  match values with
  | [lat, lon, alt, hdop, bat, spd] => some (.ldrec lat lon alt hdop bat spd)
  | _ => if h : values.toArray.size = 14 then some (.ldfrm ⟨values.toArray, h⟩) else none

/-- The lines a mnemonic and its operands stand for; none where R68 and R69 have no such line. -/
def readCommand (mnemonic : List Char) (operands : List (List Char)) : Option (List AsmLine) :=
  match mnemonic, operands with
  | ['N', 'O', 'P'], [] => some [.nop]
  | ['E', 'N', 'C'], [] => some [.enc]
  | ['D', 'E', 'C'], [] => some [.dec]
  | ['W', 'R', 'R'], [r, v] => (readReg r).bind (fun r => (readValue v).map (fun v => [.wrr r v]))
  | ['R', 'D', 'R'], [r] => (readReg r).map (fun r => [.rdr r])
  | ['W', 'R', 'B'], [a, v] => (readAddress a).bind (fun a => (readValue v).map (fun v => [.wrb a v]))
  | ['R', 'D', 'B'], [a] => (readAddress a).map (fun a => [.rdb a])
  | ['Q', 'L', 'A', 'T'], [v] => (readValue v).map (fun v => [.qlat v])
  | ['Q', 'L', 'O', 'N'], [v] => (readValue v).map (fun v => [.qlon v])
  | ['Q', 'A', 'L', 'T'], [v] => (readValue v).map (fun v => [.qalt v])
  | ['Q', 'S', 'P', 'D'], [v] => (readValue v).map (fun v => [.qspd v])
  | ['R', 'D', 'R', 'E', 'C'], [] => some Pseudo.rdrec.expand
  | ['R', 'D', 'F', 'R', 'M'], [] => some Pseudo.rdfrm.expand
  | ['L', 'D', 'R', 'E', 'C'], vs =>
    if vs.length = 6 then ((readValues vs).bind loadPseudo).map Pseudo.expand else none
  | ['L', 'D', 'F', 'R', 'M'], vs =>
    if vs.length = 14 then ((readValues vs).bind loadPseudo).map Pseudo.expand else none
  | _, _ => none

/-- "One command per line: a mnemonic, then its operands separated by commas. Text after `;` is a comment" (R68).
A line with no command stands for none; a line R68 and R69 do not have is refused. -/
def readLine (line : List Char) : Option (List AsmLine) :=
  let text := trimBlanks (line.takeWhile (fun c => c ≠ ';'))
  if text = [] then some []
  else
    readCommand (text.takeWhile (fun c => !isBlank c)) (splitOperands (text.dropWhile (fun c => !isBlank c)))

end Sys2Proof.Machine
end

