-- ==== Sys2Proof/Machine/Run.lean ====
section
/-! DEFINITION. What can be observed of a run (spec 70_reset_and_hazards.md R183), the faults it records
(60_exceptions.md R146), and what the numbers in the record mean (00_scope.md R5; 10_state.md R24 to R26; log entry 15). -/

namespace Sys2Proof.Machine

/-- What one step shows: the response pair, where the step ran a command (a reset gives no response anyone may rely
on, R170), and the `frame` port after it. -/
structure Observation where
  response : Option (Resp × Word)
  frame : BitVec 112
deriving DecidableEq, Repr

/-- What the step from `s` to `t` shows. -/
def observe (s t : State) : Observation where
  response := if s.pending.head?.any (fun x => x.reset) then none else some (t.resp, t.rdata)
  frame := t.framePort

/-- What at most `k` steps from `s` show, in order (R183). -/
def observations : Nat → State → List Observation
  | 0, _ => []
  | k + 1, s =>
    match step s with
    | .next t => observe s t :: observations k t
    | .fault _ => []
    | .refused _ => []

/-- The state after at most `k` steps from `s`. -/
def stateAfter : Nat → State → State
  | 0, s => s
  | k + 1, s =>
    match step s with
    | .next t => stateAfter k t
    | .fault _ => s
    | .refused _ => s

/-- The error the next step answers its command with, and the `info` its rule names (R141 to R144). The step itself goes
on; log entry 5. -/
def State.commandError (s : State) : Option CommandError :=
  match s.pending with
  | [] => none
  | x :: _ =>
    if x.reset then none
    else
      match decode x.command with
      | .legal _ => none
      | .illegal e => some e

/-- The fault of the next step's command, where its word is illegal: it names the command (R146: "a fault that names the
command"; U1: "naming the command word"). The step itself goes on; log entry 5. -/
def State.commandFault (s : State) : Option Fault :=
  match s.pending with
  | [] => none
  | x :: _ => s.commandError.map (errorFault x.command.cw)

/-- The faults of at most `k` steps from `s`, in order: what a model records of a run (U1). Log entry 5. -/
def faults : Nat → State → List Fault
  | 0, _ => []
  | k + 1, s =>
    match step s with
    | .next t => s.commandFault.toList ++ faults k t
    | .fault _ => []
    | .refused _ => []

/-- A state with a sequence of commands to run (R183: "a given start state, followed by a finite sequence of
commands"). -/
def State.present (s : State) (cs : List Command) : State := { s with pending := cs.map commandInput }

/-- Everything a run of a command sequence shows. -/
def State.runObservations (s : State) (cs : List Command) : List Observation :=
  observations cs.length (s.present cs)

/-- The final state of a run of a command sequence. -/
def State.runFinal (s : State) (cs : List Command) : State := stateAfter cs.length (s.present cs)

/-- Latitude in degrees: LAT counts units of 1e-5 degree (R24). -/
def State.latitudeDegrees (s : State) : Rat := sint s.lat / latLonScale

/-- Longitude in degrees (R24). -/
def State.longitudeDegrees (s : State) : Rat := sint s.lon / latLonScale

/-- Altitude in metres (R25). -/
def State.altitudeMetres (s : State) : Int := sint s.alt

/-- Battery percentage; nothing keeps it at or below 100 (R26). -/
def State.batteryPercent (s : State) : Nat := uint s.bat

/-- Speed in whole metres per second (R26). -/
def State.speedMetresPerSecond (s : State) : Nat := uint s.spd

end Sys2Proof.Machine
end

