-- ==== Sys2Proof/Safety.lean ====
section
/-! DEFINITION. The terms claims are made in: the invariant, the legal command words, and which command reads and
writes what (spec 10_state.md R22, R23, R33; 20_memory.md R45; 30_encoding.md R63). -/

namespace Sys2Proof.Machine

/-- The invariant: the frame buffer is in canonical form, so it lists only addresses that exist (R40). -/
def State.Inv (s : State) : Prop := s.frame.wf

/-- The two states hold the same record. -/
def SameRecord (s t : State) : Prop :=
  t.lat = s.lat ∧ t.lon = s.lon ∧ t.alt = s.alt ∧ t.hdop = s.hdop ∧ t.bat = s.bat ∧ t.spd = s.spd

/-- Every byte of the frame buffer reads the same. -/
def SameFrame (s t : State) : Prop := ∀ a, t.frameByte a = s.frameByte a

/-- What belongs to no rule's effect is the same: the parameters, what the host will present, the free values. -/
def SameSurroundings (s t : State) : Prop :=
  t.config = s.config ∧ t.pending = s.pending ∧ t.freeCount = s.freeCount

/-- The response pair of a step. -/
def Answers (t : State) (r : Resp) (d : Word) : Prop := t.resp = r ∧ t.rdata = d

/-- `q` is the quotient of `a` by `d` rounded toward zero, with no division in sight: "`a = q·d + r`, `|r| < d`, and `r`
zero or of the same sign as `a`" (R9). -/
def TruncatedQuotient (a : Int) (d : Nat) (q : Int) : Prop :=
  ∃ r : Int, a = q * d + r ∧ |r| < d ∧ (0 ≤ a → 0 ≤ r) ∧ (a ≤ 0 → r ≤ 0)

end Sys2Proof.Machine

namespace Sys2Proof

/-- The 47 legal command words, by range, as R63 lists them. -/
def legalWord (cw : BitVec 8) : Bool :=
  let n := cw.toNat
  decide (n = 0x00 ∨ (0x10 ≤ n ∧ n ≤ 0x15) ∨ (0x20 ≤ n ∧ n ≤ 0x25) ∨ (0x30 ≤ n ∧ n ≤ 0x3D) ∨
    (0x40 ≤ n ∧ n ≤ 0x4D) ∨ n = 0x50 ∨ n = 0x60 ∨ (0x70 ≤ n ∧ n ≤ 0x72) ∨ n = 0x75)

/-- "written by" (R23). -/
def Instr.writesReg : Instr → Reg → Bool
  | .nop, _ => false
  | .wrr r _, x => decide (Machine.regIndex x = r)
  | .rdr _, _ => false
  | .wrb _ _, _ => false
  | .rdb _, _ => false
  | .enc, _ => false
  | .dec, _ => true
  | .qlat _, x => decide (x = .lat)
  | .qlon _, x => decide (x = .lon)
  | .qalt _, x => decide (x = .alt)
  | .qspd _, x => decide (x = .spd)

/-- "read by" (R23). -/
def Instr.readsReg : Instr → Reg → Bool
  | .nop, _ => false
  | .wrr _ _, _ => false
  | .rdr r, x => decide (Machine.regIndex x = r)
  | .wrb _ _, _ => false
  | .rdb _, _ => false
  | .enc, _ => true
  | .dec, _ => false
  | .qlat _, _ => false
  | .qlon _, _ => false
  | .qalt _, _ => false
  | .qspd _, _ => false

/-- "frame bytes written" (R45). -/
def Instr.writesByte : Instr → Nat → Bool
  | .nop, _ => false
  | .wrr _ _, _ => false
  | .rdr _, _ => false
  | .wrb a _, k => decide (a.toNat = k)
  | .rdb _, _ => false
  | .enc, k => decide (k < frameBytes)
  | .dec, _ => false
  | .qlat _, _ => false
  | .qlon _, _ => false
  | .qalt _, _ => false
  | .qspd _, _ => false

/-- "frame bytes read" (R45). -/
def Instr.readsByte : Instr → Nat → Bool
  | .nop, _ => false
  | .wrr _ _, _ => false
  | .rdr _, _ => false
  | .wrb _ _, _ => false
  | .rdb a, k => decide (a.toNat = k)
  | .enc, _ => false
  | .dec, k => decide (k < frameBytes)
  | .qlat _, _ => false
  | .qlon _, _ => false
  | .qalt _, _ => false
  | .qspd _, _ => false

namespace Machine

/-- A port input that runs a command of the opcode map. -/
def LegalInput (x : PortInput) : Prop := x.reset = false ∧ legalWord x.command.cw = true

/-- A port input that neither resets nor writes register r. -/
def KeepsReg (r : Reg) (x : PortInput) : Prop :=
  x.reset = false ∧ ∀ i, decode x.command = .legal i → i.writesReg r = false

/-- A port input that neither resets nor writes frame byte k. -/
def KeepsByte (k : Nat) (x : PortInput) : Prop :=
  x.reset = false ∧ ∀ i, decode x.command = .legal i → i.writesByte k = false

end Machine

end Sys2Proof
end

