-- ==== Sys2Proof/Certificates/Slice0/Obligations.lean ====
section
/-! DEFINITION. The statements about the model, from the numbered rules of spec/. `0x..`-numbered words, byte offsets,
ranges and widths are written out from the rule each statement cites, not taken from the model's definitions. -/

open Sys2Proof Sys2Proof.Machine

/-! ## The opcode map and the errors -/

/-- Words written out bit by bit from the table of 30_encoding.md R63 decode to the commands they stand for. -/
def Obligations.SampleWordsDecode : Prop :=
  decode ⟨0b00000000, 0xDEADBEEF⟩ = .legal .nop ∧
  decode ⟨0b00010100, 0x00000057⟩ = .legal (.wrr 4 0x57) ∧
  decode ⟨0b00100001, 0⟩ = .legal (.rdr 1) ∧
  decode ⟨0b00111001, 0x00000080⟩ = .legal (.wrb 9 0x80) ∧
  decode ⟨0b01000100, 0⟩ = .legal (.rdb 4) ∧
  decode ⟨0b01010000, 0⟩ = .legal .enc ∧
  decode ⟨0b01100000, 0⟩ = .legal .dec ∧
  decode ⟨0b01110000, 0x08988455⟩ = .legal (.qlat 0x08988455) ∧
  decode ⟨0b01110001, 0xB7084795⟩ = .legal (.qlon 0xB7084795) ∧
  decode ⟨0b01110010, 0xFFFFCD39⟩ = .legal (.qalt 0xFFFFCD39) ∧
  decode ⟨0b01110101, 0x00000F9F⟩ = .legal (.qspd 0x00000F9F) ∧
  decode ⟨0b10001110, 0⟩ = .illegal (.illegalOpcode 0x8E)

/-- R63: each row of the map, for every operand word; the reserved rows; and the 47 legal words. -/
def Obligations.OpcodeMap : Prop :=
  (∀ w, decode ⟨0x00, w⟩ = .legal .nop) ∧
  (∀ (r : Nibble) (w : Word), r.toNat ≤ 5 → decode ⟨0x1#4 ++ r, w⟩ = .legal (.wrr r w)) ∧
  (∀ (r : Nibble) (w : Word), r.toNat ≤ 5 → decode ⟨0x2#4 ++ r, w⟩ = .legal (.rdr r)) ∧
  (∀ (a : Nibble) (w : Word), a.toNat ≤ 13 → decode ⟨0x3#4 ++ a, w⟩ = .legal (.wrb a w)) ∧
  (∀ (a : Nibble) (w : Word), a.toNat ≤ 13 → decode ⟨0x4#4 ++ a, w⟩ = .legal (.rdb a)) ∧
  (∀ w, decode ⟨0x50, w⟩ = .legal .enc) ∧
  (∀ w, decode ⟨0x60, w⟩ = .legal .dec) ∧
  (∀ w, decode ⟨0x70, w⟩ = .legal (.qlat w)) ∧
  (∀ w, decode ⟨0x71, w⟩ = .legal (.qlon w)) ∧
  (∀ w, decode ⟨0x72, w⟩ = .legal (.qalt w)) ∧
  (∀ w, decode ⟨0x75, w⟩ = .legal (.qspd w)) ∧
  (∀ c : Command, 0x80 ≤ c.cw.toNat → decode c = .illegal (.illegalOpcode c.cw)) ∧
  (∀ c : Command, (∃ i, decode c = .legal i) ↔ legalWord c.cw = true) ∧
  ((List.range 256).filter (fun n => legalWord (BitVec.ofNat 8 n))).length = 47

/-- Decoding what the encoder writes gives the instruction back, with every operand. -/
def Obligations.DecodeOfEncode : Prop :=
  ∀ i : Instr, i.wellFormed = true → decode (encode i) = .legal i

/-- Whatever decodes is well formed and is encoded by the same command word; the operand word is kept by the commands
that use it (`op` 1, 3 and 7: WRR, WRB and the Q commands) and written as 0 by those that ignore it. -/
def Obligations.EncodeOfDecode : Prop :=
  ∀ (c : Command) (i : Instr), decode c = .legal i →
    i.wellFormed = true ∧ (encode i).cw = c.cw ∧
    (encode i).wdata =
      if c.cw.toNat / 16 = 1 ∨ c.cw.toNat / 16 = 3 ∨ c.cw.toNat / 16 = 7 then c.wdata else 0

/-- R142: exactly these words are IllegalOpcode, the info is the word, and the response is 0b01. -/
def Obligations.IllegalOpcodeWords : Prop :=
  (∀ c : Command, (∃ x, decode c = .illegal (.illegalOpcode x)) ↔
    (8 ≤ c.cw.toNat / 16 ∨
      (c.cw.toNat / 16 = 0 ∨ c.cw.toNat / 16 = 5 ∨ c.cw.toNat / 16 = 6) ∧ c.cw.toNat % 16 ≠ 0)) ∧
  (∀ (c : Command) (x : BitVec 8), decode c = .illegal (.illegalOpcode x) → x = c.cw) ∧
  (∀ (s : State) (c : Command) (rest : List PortInput) (x : BitVec 8), s.pending = ⟨false, c⟩ :: rest →
    decode c = .illegal (.illegalOpcode x) → ∃ t, step s = .next t ∧ respCode t.resp = 0b01 ∧ t.rdata = 0) ∧
  ((List.range 256).filter (fun n => decide (0x01 ≤ n ∧ n ≤ 0x0F ∨ 0x51 ≤ n ∧ n ≤ 0x5F ∨ 0x61 ≤ n ∧ n ≤ 0x6F ∨
    0x80 ≤ n ∧ n ≤ 0xFF))).length = 173 ∧
  (∀ c : Command, (∃ x, decode c = .illegal (.illegalOpcode x)) ↔
    (0x01 ≤ c.cw.toNat ∧ c.cw.toNat ≤ 0x0F ∨ 0x51 ≤ c.cw.toNat ∧ c.cw.toNat ≤ 0x5F ∨
      0x61 ≤ c.cw.toNat ∧ c.cw.toNat ≤ 0x6F ∨ 0x80 ≤ c.cw.toNat))

/-- R143: exactly these words are IllegalRegister, the info is the index, and the response is 0b10. -/
def Obligations.IllegalRegisterWords : Prop :=
  (∀ c : Command, (∃ x, decode c = .illegal (.illegalRegister x)) ↔
    ((c.cw.toNat / 16 = 1 ∨ c.cw.toNat / 16 = 2) ∧ 6 ≤ c.cw.toNat % 16 ∨
      c.cw.toNat / 16 = 7 ∧ (c.cw.toNat % 16 = 3 ∨ c.cw.toNat % 16 = 4 ∨ 6 ≤ c.cw.toNat % 16))) ∧
  (∀ (c : Command) (x : Nibble), decode c = .illegal (.illegalRegister x) → x = c.cw.extractLsb' 0 4) ∧
  (∀ (s : State) (c : Command) (rest : List PortInput) (x : Nibble), s.pending = ⟨false, c⟩ :: rest →
    decode c = .illegal (.illegalRegister x) → ∃ t, step s = .next t ∧ respCode t.resp = 0b10 ∧ t.rdata = 0) ∧
  ((List.range 256).filter (fun n => decide (0x16 ≤ n ∧ n ≤ 0x1F ∨ 0x26 ≤ n ∧ n ≤ 0x2F ∨ n = 0x73 ∨ n = 0x74 ∨
    0x76 ≤ n ∧ n ≤ 0x7F))).length = 32 ∧
  (∀ c : Command, (∃ x, decode c = .illegal (.illegalRegister x)) ↔
    (0x16 ≤ c.cw.toNat ∧ c.cw.toNat ≤ 0x1F ∨ 0x26 ≤ c.cw.toNat ∧ c.cw.toNat ≤ 0x2F ∨ c.cw.toNat = 0x73 ∨
      c.cw.toNat = 0x74 ∨ 0x76 ≤ c.cw.toNat ∧ c.cw.toNat ≤ 0x7F))

/-- R144: exactly these words are IllegalAddress, the info is the address, and the response is 0b11. -/
def Obligations.IllegalAddressWords : Prop :=
  (∀ c : Command, (∃ x, decode c = .illegal (.illegalAddress x)) ↔
    ((c.cw.toNat / 16 = 3 ∨ c.cw.toNat / 16 = 4) ∧ (c.cw.toNat % 16 = 14 ∨ c.cw.toNat % 16 = 15))) ∧
  (∀ (c : Command) (x : Nibble), decode c = .illegal (.illegalAddress x) → x = c.cw.extractLsb' 0 4) ∧
  (∀ (s : State) (c : Command) (rest : List PortInput) (x : Nibble), s.pending = ⟨false, c⟩ :: rest →
    decode c = .illegal (.illegalAddress x) → ∃ t, step s = .next t ∧ respCode t.resp = 0b11 ∧ t.rdata = 0) ∧
  (∀ c : Command, (∃ x, decode c = .illegal (.illegalAddress x)) ↔
    (c.cw.toNat = 0x3E ∨ c.cw.toNat = 0x3F ∨ c.cw.toNat = 0x4E ∨ c.cw.toNat = 0x4F))

/-- R141: a word that decodes to an error is answered with the error's code and `rdata` 0, and no register, no frame
byte and no other field changes; nothing of it reaches the next command, which runs as if the erroneous one had never
been issued. -/
def Obligations.ErrorChangesNothing : Prop :=
  (∀ (s : State) (c : Command) (rest : List PortInput) (e : CommandError), s.pending = ⟨false, c⟩ :: rest →
    decode c = .illegal e →
    step s = .next { s with pending := rest, resp := errorResp e, rdata := 0 }) ∧
  (∀ (s : State) (c : Command) (x : PortInput) (rest : List PortInput) (e : CommandError),
    s.pending = ⟨false, c⟩ :: x :: rest → decode c = .illegal e →
    ∃ t, step s = .next t ∧ step t = step { s with pending := x :: rest })

/-- An instruction with an illegal index or address ends in the error its own pseudocode raises (R121, R122, R131, R132),
and that is the error the decoder names for its words (R143, R144): that the two checks are one is the model's reading,
log entry 9. -/
def Obligations.IllFormedInstructionsEndInTheirError : Prop :=
  ∀ (i : Instr) (s : State), i.wellFormed = false →
    ∃ e, exec i s = .next { s with resp := errorResp e, rdata := 0 } ∧ decode (encode i) = .illegal e

/-- R145: whether a command errs, and how, is a function of its command word alone, and no operand, register or frame
byte makes a legal command fail. -/
def Obligations.ErrorsDependOnTheWordAlone : Prop :=
  (∀ (cw : BitVec 8) (w w' : Word) (e : CommandError),
    decode ⟨cw, w⟩ = .illegal e → decode ⟨cw, w'⟩ = .illegal e) ∧
  (∀ (s : State) (c : Command) (rest : List PortInput), s.pending = ⟨false, c⟩ :: rest → legalWord c.cw = true →
    ∃ t, step s = .next t ∧ t.resp = .ok) ∧
  (∀ (s : State) (c : Command) (rest : List PortInput), s.pending = ⟨false, c⟩ :: rest → legalWord c.cw = false →
    ∃ t, step s = .next t ∧ t.resp ≠ .ok)

/-- A fault names every failing command (R146 and U1 ask a model to; the model records it beside the step, and the step
goes on, log entry 5): there is an error exactly for the illegal words, the step answers its code and leaves the state,
and for each of the three codes the fault holds the command word and the info of R142 to R144. -/
def Obligations.CommandErrorNamesEveryFailure : Prop :=
  ∀ (s : State) (c : Command) (rest : List PortInput), s.pending = ⟨false, c⟩ :: rest →
    (s.commandError = none ↔ legalWord c.cw = true) ∧
    ∃ t, step s = .next t ∧
      (s.commandError = none → t.resp = .ok) ∧
      (∀ e, s.commandError = some e →
        t = { s with pending := rest, resp := errorResp e, rdata := 0 } ∧ respCode t.resp ≠ 0b00) ∧
      (s.commandFault = none ↔ respCode t.resp = 0b00) ∧
      (respCode t.resp = 0b01 → s.commandFault = some (.illegalOpcode c.cw)) ∧
      (respCode t.resp = 0b10 → s.commandFault = some (.illegalRegister c.cw (c.cw.extractLsb' 0 4))) ∧
      (respCode t.resp = 0b11 → s.commandFault = some (.illegalAddress c.cw (c.cw.extractLsb' 0 4)))

/-- The faults a run records name, in order, its illegal command words and no others, whatever is presented with them; so
a run with no reset has none exactly when every response was OK, which the command words decide (R145, R146). That the
faults are recorded beside the run is the model's choice, log entry 5. -/
def Obligations.RecordedFaultsNameTheIllegalCommands : Prop :=
  (∀ s : State, (faults s.pending.length s).map Fault.command =
    ((s.pending.filter (fun x => !x.reset && !legalWord x.command.cw)).map (fun x => some x.command.cw))) ∧
  (∀ s : State, (∀ x ∈ s.pending, x.reset = false) →
    ((faults s.pending.length s = [] ↔ ∀ x ∈ s.pending, legalWord x.command.cw = true) ∧
     (faults s.pending.length s = [] ↔
      ∀ o ∈ observations s.pending.length s, ∃ d, o.response = some (.ok, d))))

/-- R66: the four codes, and that every legal command answers OK from every state. -/
def Obligations.LegalCommandsAnswerOk : Prop :=
  (respCode .ok = 0b00 ∧ respCode .illegalOpcode = 0b01 ∧ respCode .illegalRegister = 0b10 ∧
    respCode .illegalAddress = 0b11) ∧
  ∀ (i : Instr) (s : State), i.wellFormed = true → ∃ t, exec i s = .next t ∧ t.resp = .ok

/-! ## The step, the reset, the invariants -/

/-- A step whose next command decodes to `i` is `exec i` on the state with that command taken from the port and nothing
else changed. -/
def Obligations.StepRunsTheDecodedCommand : Prop :=
  ∀ (s : State) (c : Command) (rest : List PortInput) (i : Instr), s.pending = ⟨false, c⟩ :: rest →
    decode c = .legal i → step s = exec i { s with pending := rest }

/-- R171: every register and every frame byte is 0 in the reset state. -/
def Obligations.ResetStateIsZero : Prop :=
  State.reset.lat = 0 ∧ State.reset.lon = 0 ∧ State.reset.alt = 0 ∧ State.reset.hdop = 0 ∧ State.reset.bat = 0 ∧
  State.reset.spd = 0 ∧ ∀ a, a < 14 → State.reset.frameByte a = 0

/-- R170: a requested reset gives the reset state from any state; the command presented with it is not executed and is
not presented again; the parameters stay; power-up, where the core starts, is that same reset state. Nothing is said of
`resp` and `rdata`. -/
def Obligations.ResetEvent : Prop :=
  Sys2Proof.core.reset = State.reset ∧
  ∀ (s : State) (c : Command) (rest : List PortInput), s.pending = ⟨true, c⟩ :: rest →
    ∃ t, step s = .next t ∧ SameRecord State.reset t ∧ t.frame = State.reset.frame ∧
      (t.lat = 0 ∧ t.lon = 0 ∧ t.alt = 0 ∧ t.hdop = 0 ∧ t.bat = 0 ∧ t.spd = 0) ∧
      (∀ a, t.frameByte a = 0) ∧ t.config = s.config ∧ t.pending = rest

/-- The reset state meets the invariant; the canonical form in it is the model's choice of representation, log entry 7. -/
def Obligations.InvariantAtReset : Prop := State.reset.Inv

/-- Every step keeps the frame buffer in canonical form: only the fourteen addresses that exist (R40), listed in rising
order with no byte that an unlisted address reads as, which is the model's choice of representation, log entry 7. -/
def Obligations.StepKeepsTheInvariant : Prop :=
  ∀ s t : State, s.Inv → step s = .next t → t.Inv

/-- A step takes one input from the port and never changes the three parameters (R29: "no command reads or writes
them" as registers); the free values used only grow in number. -/
def Obligations.StepKeepsTheParameters : Prop :=
  ∀ s t : State, step s = .next t →
    t.config = s.config ∧ s.pending ≠ [] ∧ t.pending = s.pending.tail ∧ s.freeCount ≤ t.freeCount

/-! ## The commands -/

/-- R133: NOP, whatever `wdata` is, changes no register and no byte; 0x01 to 0x0F are not NOP. -/
def Obligations.NopDoesNothing : Prop :=
  (∀ w, decode ⟨0x00, w⟩ = .legal .nop) ∧
  (∀ c : Command, 0x01 ≤ c.cw.toNat → c.cw.toNat ≤ 0x0F → decode c = .illegal (.illegalOpcode c.cw)) ∧
  ∀ s : State, exec .nop s = .next { s with resp := .ok, rdata := 0 }

/-- R121: WRR for each of the six registers and for the ten indices that name none. -/
def Obligations.WrrWritesTheRegister : Prop :=
  (∀ (r : Nibble) (w : Word), r.toNat ≤ 5 → decode ⟨0x1#4 ++ r, w⟩ = .legal (.wrr r w)) ∧
  ∀ (w : Word) (s : State),
    exec (.wrr 0 w) s = .next { s with lat := w, resp := .ok, rdata := 0 } ∧
    exec (.wrr 1 w) s = .next { s with lon := w, resp := .ok, rdata := 0 } ∧
    exec (.wrr 2 w) s = .next { s with alt := w, resp := .ok, rdata := 0 } ∧
    exec (.wrr 3 w) s = .next { s with hdop := w.extractLsb' 0 8, resp := .ok, rdata := 0 } ∧
    exec (.wrr 4 w) s = .next { s with bat := w.extractLsb' 0 8, resp := .ok, rdata := 0 } ∧
    exec (.wrr 5 w) s = .next { s with spd := w.extractLsb' 0 16, resp := .ok, rdata := 0 } ∧
    ∀ r : Nibble, 6 ≤ r.toNat →
      exec (.wrr r w) s = .next { s with resp := .illegalRegister, rdata := 0 }

/-- R122: RDR for each of the six registers and for the ten indices that name none. -/
def Obligations.RdrReadsTheRegister : Prop :=
  (∀ (r : Nibble) (w : Word), r.toNat ≤ 5 → decode ⟨0x2#4 ++ r, w⟩ = .legal (.rdr r)) ∧
  ∀ s : State,
    exec (.rdr 0) s = .next { s with resp := .ok, rdata := s.lat } ∧
    exec (.rdr 1) s = .next { s with resp := .ok, rdata := s.lon } ∧
    exec (.rdr 2) s = .next { s with resp := .ok, rdata := s.alt } ∧
    exec (.rdr 3) s = .next { s with resp := .ok, rdata := 0#24 ++ s.hdop } ∧
    exec (.rdr 4) s = .next { s with resp := .ok, rdata := 0#24 ++ s.bat } ∧
    exec (.rdr 5) s = .next { s with resp := .ok, rdata := 0#16 ++ s.spd } ∧
    ∀ r : Nibble, 6 ≤ r.toNat →
      exec (.rdr r) s = .next { s with resp := .illegalRegister, rdata := 0 }

/-- R131: WRB stores one byte at the address in the command word and changes no other byte and no register. -/
def Obligations.WrbStoresOneByte : Prop :=
  (∀ (a : Nibble) (w : Word), a.toNat ≤ 13 → decode ⟨0x3#4 ++ a, w⟩ = .legal (.wrb a w)) ∧
  (∀ (a : Nibble) (w : Word) (s : State), a.toNat ≤ 13 →
    ∃ t, exec (.wrb a w) s = .next t ∧ t.frameByte a.toNat = w.extractLsb' 0 8 ∧
      (∀ b, b ≠ a.toNat → t.frameByte b = s.frameByte b) ∧
      SameRecord s t ∧ SameSurroundings s t ∧ Answers t .ok 0) ∧
  (∀ (a : Nibble) (w : Word) (s : State), 14 ≤ a.toNat →
    exec (.wrb a w) s = .next { s with resp := .illegalAddress, rdata := 0 })

/-- R132: RDB returns the byte zero-extended and changes no state. -/
def Obligations.RdbReadsOneByte : Prop :=
  (∀ (a : Nibble) (w : Word), a.toNat ≤ 13 → decode ⟨0x4#4 ++ a, w⟩ = .legal (.rdb a)) ∧
  (∀ (a : Nibble) (s : State), a.toNat ≤ 13 →
    exec (.rdb a) s = .next { s with resp := .ok, rdata := 0#24 ++ s.frameByte a.toNat }) ∧
  (∀ (a : Nibble) (s : State), 14 ≤ a.toNat →
    exec (.rdb a) s = .next { s with resp := .illegalAddress, rdata := 0 })

/-- R85: ENC writes the fourteen bytes, each from its place in the record, and no register; 0x51 to 0x5F are not ENC. -/
def Obligations.EncWritesTheFrame : Prop :=
  (∀ w, decode ⟨0x50, w⟩ = .legal .enc) ∧
  (∀ c : Command, 0x51 ≤ c.cw.toNat → c.cw.toNat ≤ 0x5F → decode c = .illegal (.illegalOpcode c.cw)) ∧
  ∀ s : State, ∃ t, exec .enc s = .next t ∧
    t.frameByte 0 = s.lat.extractLsb' 0 8 ∧ t.frameByte 1 = s.lat.extractLsb' 8 8 ∧
    t.frameByte 2 = s.lat.extractLsb' 16 8 ∧ t.frameByte 3 = s.lat.extractLsb' 24 8 ∧
    t.frameByte 4 = s.lon.extractLsb' 0 8 ∧ t.frameByte 5 = s.lon.extractLsb' 8 8 ∧
    t.frameByte 6 = s.lon.extractLsb' 16 8 ∧ t.frameByte 7 = s.lon.extractLsb' 24 8 ∧
    t.frameByte 8 = s.alt.extractLsb' 0 8 ∧ t.frameByte 9 = s.alt.extractLsb' 8 8 ∧
    t.frameByte 10 = s.hdop ∧ t.frameByte 11 = s.bat ∧
    t.frameByte 12 = s.spd.extractLsb' 0 8 ∧ t.frameByte 13 = s.spd.extractLsb' 8 8 ∧
    (∀ a, 14 ≤ a → t.frameByte a = s.frameByte a) ∧
    SameRecord s t ∧ SameSurroundings s t ∧ Answers t .ok 0

/-- R88: DEC writes the six registers from the fourteen bytes, altitude with its sign, and no frame byte; 0x61 to 0x6F
are not DEC. -/
def Obligations.DecWritesTheRecord : Prop :=
  (∀ w, decode ⟨0x60, w⟩ = .legal .dec) ∧
  (∀ c : Command, 0x61 ≤ c.cw.toNat → c.cw.toNat ≤ 0x6F → decode c = .illegal (.illegalOpcode c.cw)) ∧
  ∀ s : State, ∃ t, exec .dec s = .next t ∧
    t.lat = s.frameByte 3 ++ s.frameByte 2 ++ s.frameByte 1 ++ s.frameByte 0 ∧
    t.lon = s.frameByte 7 ++ s.frameByte 6 ++ s.frameByte 5 ++ s.frameByte 4 ∧
    t.alt.extractLsb' 0 16 = s.frameByte 9 ++ s.frameByte 8 ∧
    (∀ i, 16 ≤ i → i < 32 → t.alt.getLsbD i = (s.frameByte 9).getLsbD 7) ∧
    t.hdop = s.frameByte 10 ∧ t.bat = s.frameByte 11 ∧
    t.spd = s.frameByte 13 ++ s.frameByte 12 ∧
    t.frame = s.frame ∧ SameSurroundings s t ∧ Answers t .ok 0

/-- R101: QLAT divides the signed operand by DEG_DIV toward zero; only LAT changes; the quotient never wraps. -/
def Obligations.QlatWritesTheQuotient : Prop :=
  (∀ w, decode ⟨0x70, w⟩ = .legal (.qlat w)) ∧
  ∀ (w : Word) (s : State), ∃ q : Word,
    exec (.qlat w) s = .next { s with lat := q, resp := .ok, rdata := 0 } ∧
    TruncatedQuotient w.toInt s.config.degDiv.val q.toInt

/-- R102: QLON divides the signed operand by DEG_DIV, the divisor of QLAT, toward zero; only LON changes. -/
def Obligations.QlonWritesTheQuotient : Prop :=
  (∀ w, decode ⟨0x71, w⟩ = .legal (.qlon w)) ∧
  ∀ (w : Word) (s : State), ∃ q : Word,
    exec (.qlon w) s = .next { s with lon := q, resp := .ok, rdata := 0 } ∧
    TruncatedQuotient w.toInt s.config.degDiv.val q.toInt

/-- R103: QALT divides the signed operand by ALT_DIV toward zero; only ALT changes, all 32 bits of it. -/
def Obligations.QaltWritesTheQuotient : Prop :=
  (∀ w, decode ⟨0x72, w⟩ = .legal (.qalt w)) ∧
  ∀ (w : Word) (s : State), ∃ q : Word,
    exec (.qalt w) s = .next { s with alt := q, resp := .ok, rdata := 0 } ∧
    TruncatedQuotient w.toInt s.config.altDiv.val q.toInt

/-- R104: QSPD divides the unsigned operand by SPD_DIV and keeps the low 16 bits; only SPD changes. -/
def Obligations.QspdWritesTheQuotient : Prop :=
  (∀ w, decode ⟨0x75, w⟩ = .legal (.qspd w)) ∧
  ∀ (w : Word) (s : State), ∃ q r : Nat,
    w.toNat = q * s.config.spdDiv.val + r ∧ r < s.config.spdDiv.val ∧
    exec (.qspd w) s = .next { s with spd := BitVec.ofNat 16 (q % 65536), resp := .ok, rdata := 0 }

/-! ## What a command leaves alone -/

/-- The frame of every command, register side: it changes only the registers that the table of 10_state.md R23 gives it,
and none of what surrounds the block. -/
def Obligations.OnlyWritersChangeARegister : Prop :=
  ∀ (i : Instr) (s : State), ∃ t, exec i s = .next t ∧
    (∀ r : Reg, i.writesReg r = false → t.reg r = s.reg r) ∧ SameSurroundings s t

/-- The frame of every command, memory side: it changes only the frame bytes that the table of 20_memory.md R45 gives it,
and a command that writes none leaves the frame buffer as it is. -/
def Obligations.OnlyWritersChangeAFrameByte : Prop :=
  ∀ (i : Instr) (s : State), ∃ t, exec i s = .next t ∧
    (∀ k, i.writesByte k = false → t.frameByte k = s.frameByte k) ∧
    ((∀ k, k < 14 → i.writesByte k = false) → t.frame = s.frame)

/-- A register that a command does not read (R23) has no part in what the command does: with another value in it, the
command does the same and leaves that value, or its own where it writes the register. -/
def Obligations.OnlyReadRegistersMatter : Prop :=
  ∀ (i : Instr) (s t : State) (r : Reg) (v : BitVec (regWidth r)), i.readsReg r = false → exec i s = .next t →
    exec i (s.setReg r v) = .next (if i.writesReg r = true then t else t.setReg r v)

/-- A frame byte that a command does not read (R45) has no part in the record it leaves, in its response or in any other
byte. -/
def Obligations.OnlyReadFrameBytesMatter : Prop :=
  ∀ (i : Instr) (s t : State) (k : Nat) (v : Byte), k < 14 → i.readsByte k = false → exec i s = .next t →
    ∃ u, exec i (s.setFrameByte k v) = .next u ∧ SameRecord t u ∧ SameSurroundings t u ∧
      Answers u t.resp t.rdata ∧ (∀ b, b ≠ k → u.frameByte b = t.frameByte b) ∧
      u.frameByte k = if i.writesByte k = true then t.frameByte k else v

/-- The parameters matter to the four Q commands alone (R91 (e) says so of ENC and DEC). -/
def Obligations.ParametersMatterToQuantisersAlone : Prop :=
  ∀ (i : Instr) (s t : State) (p : Config), (∀ w, i ≠ .qlat w ∧ i ≠ .qlon w ∧ i ≠ .qalt w ∧ i ≠ .qspd w) →
    exec i s = .next t → exec i { s with config := p } = .next { t with config := p }

/-- The bits of `wdata` that 30_encoding.md R64 calls ignored change neither the state nor the response. -/
def Obligations.IgnoredOperandBitsDoNotMatter : Prop :=
  ∀ (s : State) (cw : BitVec 8) (w w' : Word) (rest : List PortInput),
    ((0x10 ≤ cw.toNat ∧ cw.toNat ≤ 0x12 ∨ 0x70 ≤ cw.toNat ∧ cw.toNat ≤ 0x72 ∨ cw.toNat = 0x75) → w = w') →
    ((0x13 ≤ cw.toNat ∧ cw.toNat ≤ 0x14 ∨ 0x30 ≤ cw.toNat ∧ cw.toNat ≤ 0x3D) →
      w.extractLsb' 0 8 = w'.extractLsb' 0 8) →
    (cw.toNat = 0x15 → w.extractLsb' 0 16 = w'.extractLsb' 0 16) →
    step { s with pending := ⟨false, ⟨cw, w⟩⟩ :: rest } = step { s with pending := ⟨false, ⟨cw, w'⟩⟩ :: rest }

/-! ## The laws between ENC and DEC (40_codec_enc_dec.md section 4, which marks them as derived from R85 and R88) -/

/-- The record round trip, "exactly as they were" and the exact altitudes that survive (the spec's own inference,
R89). -/
def Obligations.EncThenDecRecord : Prop :=
  ∀ s : State, ∃ t u, exec .enc s = .next t ∧ exec .dec t = .next u ∧
    u.lat = s.lat ∧ u.lon = s.lon ∧ u.hdop = s.hdop ∧ u.bat = s.bat ∧ u.spd = s.spd ∧
    u.alt = (s.alt.extractLsb' 0 16).signExtend 32 ∧
    (SameRecord s u ↔ -32768 ≤ s.alt.toInt ∧ s.alt.toInt ≤ 32767)

/-- The frame round trip, for every frame content (the spec's own inference, R90); in canonical form, which is the model's
choice of representation (log entry 7), the two frame buffers are equal data. -/
def Obligations.DecThenEncFrame : Prop :=
  ∀ s : State, ∃ t u, exec .dec s = .next t ∧ exec .enc t = .next u ∧ SameFrame s u ∧
    (s.Inv → u.frame = s.frame)

/-- What altitude the frame carries (the spec's own inference, R86): the low 16 bits; as a signed number, the one in
−32768 to 32767 congruent to ALT modulo 65536; ALT itself exactly where ALT is in that range. -/
def Obligations.EncodedAltitude : Prop :=
  ∀ s : State, ∃ t, exec .enc s = .next t ∧
    t.frameByte 9 ++ t.frameByte 8 = s.alt.extractLsb' 0 16 ∧
    -32768 ≤ (t.frameByte 9 ++ t.frameByte 8).toInt ∧ (t.frameByte 9 ++ t.frameByte 8).toInt ≤ 32767 ∧
    (t.frameByte 9 ++ t.frameByte 8).toInt % 65536 = s.alt.toInt % 65536 ∧
    ((t.frameByte 9 ++ t.frameByte 8).toInt = s.alt.toInt ↔ -32768 ≤ s.alt.toInt ∧ s.alt.toInt ≤ 32767)

/-- ENC as a map from records to frames (the spec's own inference, R91 (a) and (b)): doing it twice is doing it once; two
records give the same frame exactly when they agree outside ALT[31:16]; every frame comes from some record. -/
def Obligations.EncodingIsOnto : Prop :=
  (∀ s : State, ∃ t, exec .enc s = .next t ∧ ∃ u, exec .enc t = .next u ∧ SameFrame t u ∧ SameRecord t u) ∧
  (∀ s s' : State, ∃ t t', exec .enc s = .next t ∧ exec .enc s' = .next t' ∧
    ((∀ a, a < 14 → t.frameByte a = t'.frameByte a) ↔
      s.lat = s'.lat ∧ s.lon = s'.lon ∧ s.alt.extractLsb' 0 16 = s'.alt.extractLsb' 0 16 ∧ s.hdop = s'.hdop ∧
      s.bat = s'.bat ∧ s.spd = s'.spd)) ∧
  (∀ f : Nat → Byte, ∃ s t : State, exec .enc s = .next t ∧ ∀ a, a < 14 → t.frameByte a = f a)

/-- DEC as a map from frames to records (the spec's own inference, R91 (a) and (c)): doing it twice is doing it once; it
is one-to-one; its image is the records whose ALT[31:16] all equal ALT[15]. -/
def Obligations.DecodingIsOneToOne : Prop :=
  (∀ s : State, ∃ t, exec .dec s = .next t ∧ exec .dec t = .next t) ∧
  (∀ s s' : State, ∃ t t', exec .dec s = .next t ∧ exec .dec s' = .next t' ∧
    (SameRecord t t' ↔ ∀ a, a < 14 → s.frameByte a = s'.frameByte a)) ∧
  (∀ r : State, (∃ s t : State, exec .dec s = .next t ∧ SameRecord r t) ↔
    ∀ i, 16 ≤ i → i < 32 → r.alt.getLsbD i = r.alt.getLsbD 15)

/-- The closed form on the `frame` port (the spec's own inference, R92): ENC is one concatenation, DEC its inverse, and
the port as a number. -/
def Obligations.FramePortClosedForm : Prop :=
  (∀ s : State, ∃ t, exec .enc s = .next t ∧
    t.framePort = s.spd ++ s.bat ++ s.hdop ++ s.alt.extractLsb' 0 16 ++ s.lon ++ s.lat ∧
    t.framePort.toNat = s.lat.toNat + 2 ^ 32 * s.lon.toNat + 2 ^ 64 * (s.alt.extractLsb' 0 16).toNat +
      2 ^ 80 * s.hdop.toNat + 2 ^ 88 * s.bat.toNat + 2 ^ 96 * s.spd.toNat) ∧
  (∀ s : State, ∃ t, exec .dec s = .next t ∧
    t.lat = s.framePort.extractLsb' 0 32 ∧ t.lon = s.framePort.extractLsb' 32 32 ∧
    t.alt = (s.framePort.extractLsb' 64 16).signExtend 32 ∧ t.hdop = s.framePort.extractLsb' 80 8 ∧
    t.bat = s.framePort.extractLsb' 88 8 ∧ t.spd = s.framePort.extractLsb' 96 16)

/-- R31: byte a of the `frame` port is FB[a], and in a run the port after each step shows the frame buffer that step
produced. -/
def Obligations.FramePortShowsTheFrame : Prop :=
  (∀ (s : State) (a : Nat), a < 14 → s.framePort.extractLsb' (8 * a) 8 = s.frameByte a) ∧
  (∀ (s : State) (k : Nat), k < s.pending.length →
    ((observations s.pending.length s)[k]?).map (fun o => o.frame) = some (stateAfter (k + 1) s).framePort)

/-- The mixed-width view, on the example the spec infers in R42: a byte with its top bit set, stored at address 9, makes
ALT negative after DEC whatever FB[8] holds, and ALT keeps FB[8] as its low byte. -/
def Obligations.SignByteDecidesTheAltitude : Prop :=
  ∀ (s : State) (w : Word), w.getLsbD 7 = true →
    ∃ t u, exec (.wrb 9 w) s = .next t ∧ exec .dec t = .next u ∧ u.alt.toInt < 0 ∧
      u.alt.extractLsb' 0 8 = s.frameByte 8

/-! ## The arithmetic -/

/-- The division of 00_scope.md R9 (general knowledge, as the spec marks it): the two cases with `floor`, and that it
is the one quotient that rounds toward zero. -/
def Obligations.DivisionRoundsTowardZero : Prop :=
  ∀ (a : Int) (d : Nat), 1 ≤ d →
    (0 ≤ a → tdiv a d = ⌊(a : ℚ) / (d : ℚ)⌋) ∧
    (a < 0 → tdiv a d = -⌊(-a : ℚ) / (d : ℚ)⌋) ∧
    ∀ q : Int, TruncatedQuotient a d q ↔ q = tdiv a d

/-- The identities the spec infers in 41_quantize.md R107. -/
def Obligations.DivisionIdentities : Prop :=
  (∀ (a : Int) (d : Nat), 1 ≤ d →
    tdiv (-a) d = -tdiv a d ∧ tdiv a 1 = a ∧ |tdiv a d| ≤ |a| ∧ (tdiv a d = 0 ↔ |a| < d)) ∧
  (∀ w : Word, tdiv w.toInt 2147483647 =
    if w.toInt = -2147483648 ∨ w.toInt = -2147483647 then -1 else if w.toInt = 2147483647 then 1 else 0)

/-- The quantisation error the spec infers in R108, for the three signed quantisers: the register differs from the exact
quotient by less than one unit and is never further from zero. -/
def Obligations.QuantisationErrorBelowOneUnit : Prop :=
  ∀ (w : Word) (s : State),
    (∃ t, exec (.qlat w) s = .next t ∧
      (0 ≤ w.toInt → 0 ≤ (w.toInt : ℚ) / s.config.degDiv.val - t.lat.toInt ∧
        (w.toInt : ℚ) / s.config.degDiv.val - t.lat.toInt < 1) ∧
      (w.toInt < 0 → -1 < (w.toInt : ℚ) / s.config.degDiv.val - t.lat.toInt ∧
        (w.toInt : ℚ) / s.config.degDiv.val - t.lat.toInt ≤ 0)) ∧
    (∃ t, exec (.qlon w) s = .next t ∧
      (0 ≤ w.toInt → 0 ≤ (w.toInt : ℚ) / s.config.degDiv.val - t.lon.toInt ∧
        (w.toInt : ℚ) / s.config.degDiv.val - t.lon.toInt < 1) ∧
      (w.toInt < 0 → -1 < (w.toInt : ℚ) / s.config.degDiv.val - t.lon.toInt ∧
        (w.toInt : ℚ) / s.config.degDiv.val - t.lon.toInt ≤ 0)) ∧
    (∃ t, exec (.qalt w) s = .next t ∧
      (0 ≤ w.toInt → 0 ≤ (w.toInt : ℚ) / s.config.altDiv.val - t.alt.toInt ∧
        (w.toInt : ℚ) / s.config.altDiv.val - t.alt.toInt < 1) ∧
      (w.toInt < 0 → -1 < (w.toInt : ℚ) / s.config.altDiv.val - t.alt.toInt ∧
        (w.toInt : ℚ) / s.config.altDiv.val - t.alt.toInt ≤ 0))

/-! ## Runs -/

/-- Every command that is presented completes: as many steps as inputs, each with something to observe, and then the
port is empty and the model stops (that stop is the model's choice, log entry 6). -/
def Obligations.EveryPresentedCommandCompletes : Prop :=
  ∀ s : State,
    (observations s.pending.length s).length = s.pending.length ∧
    Host.Core.run Sys2Proof.core s.pending.length s = .next (stateAfter s.pending.length s) ∧
    (stateAfter s.pending.length s).pending = [] ∧
    step (stateAfter s.pending.length s) = .fault .noCommand

/-- A run of legal command words answers OK to every command, from any state and with any operands. -/
def Obligations.LegalRunsAnswerOk : Prop :=
  ∀ s : State, (∀ x ∈ s.pending, LegalInput x) → ∀ k, ∀ o ∈ observations k s,
    ∃ d, o.response = some (.ok, d)

/-- R33: over any number of steps, a register or frame byte that none of the commands writes, with no reset among them,
is bit-identical to what it was. -/
def Obligations.UnwrittenStatePersists : Prop :=
  (∀ (r : Reg) (s : State), (∀ x ∈ s.pending, KeepsReg r x) → ∀ k, (stateAfter k s).reg r = s.reg r) ∧
  (∀ (b : Nat) (s : State), (∀ x ∈ s.pending, KeepsByte b x) → ∀ k, (stateAfter k s).frameByte b = s.frameByte b)

/-- Write then read, over whatever commands between leave the register alone (the spec's own inference, R123). -/
def Obligations.RegisterReadReturnsLatestWrite : Prop :=
  ∀ (r : Reg) (w w0 : Word) (between : List Command) (s : State),
    (∀ c ∈ between, KeepsReg r ⟨false, c⟩) →
    (s.runFinal (⟨0x1#4 ++ regIndex r, w⟩ :: between ++ [⟨0x2#4 ++ regIndex r, w0⟩])).rdata =
      match r with
      | .lat => w
      | .lon => w
      | .alt => w
      | .hdop => 0#24 ++ w.extractLsb' 0 8
      | .bat => 0#24 ++ w.extractLsb' 0 8
      | .spd => 0#16 ++ w.extractLsb' 0 16

/-- RDB returns the most recent earlier WRB to its address, over whatever commands between leave the byte alone. -/
def Obligations.FrameReadReturnsLatestWrite : Prop :=
  ∀ (a : Nibble) (w w0 : Word) (between : List Command) (s : State), a.toNat ≤ 13 →
    (∀ c ∈ between, KeepsByte a.toNat ⟨false, c⟩) →
    (s.runFinal (⟨0x3#4 ++ a, w⟩ :: between ++ [⟨0x4#4 ++ a, w0⟩])).rdata = 0#24 ++ w.extractLsb' 0 8

/-- The frame a host sends before any fix (the spec's own inference, R172): zero but for the battery; and ENC straight
after reset leaves the frame buffer all zero. -/
def Obligations.FirstFrameAfterReset : Prop :=
  (∀ w : Word, ∀ a, (State.reset.runFinal [⟨0x14, w⟩, ⟨0x50, 0⟩]).frameByte a =
    if a = 11 then w.extractLsb' 0 8 else 0) ∧
  ∀ a, (State.reset.runFinal [⟨0x50, 0⟩]).frameByte a = 0

/-! ## The assembler -/

/-- R68: every line assembles to a command word of the map that decodes to the command the line names. -/
def Obligations.AssembledLinesDecode : Prop :=
  ∀ l : AsmLine, l.instr.wellFormed = true ∧ decode (assemble l) = .legal l.instr ∧ assemble l = encode l.instr

/-- The pseudo-instructions of R69 as runs: LDREC loads the record, LDFRM the frame buffer, RDREC and RDFRM answer with
them in order. -/
def Obligations.PseudoInstructionsLoadAndRead : Prop :=
  (∀ (s : State) (a b c d e f : Int),
    let t := s.runFinal (Pseudo.ldrec a b c d e f).commands
    t.lat = BitVec.ofInt 32 a ∧ t.lon = BitVec.ofInt 32 b ∧ t.alt = BitVec.ofInt 32 c ∧
    t.hdop = BitVec.ofInt 8 d ∧ t.bat = BitVec.ofInt 8 e ∧ t.spd = BitVec.ofInt 16 f ∧ SameFrame s t) ∧
  (∀ (s : State) (v : Vector Int 14),
    let t := s.runFinal (Pseudo.ldfrm v).commands
    (∀ k : Fin 14, t.frameByte k.val = BitVec.ofInt 8 v[k]) ∧ SameRecord s t) ∧
  (∀ s : State, (s.runObservations Pseudo.rdrec.commands).map (fun o => o.response) =
    [some (.ok, s.lat), some (.ok, s.lon), some (.ok, s.alt), some (.ok, 0#24 ++ s.hdop),
      some (.ok, 0#24 ++ s.bat), some (.ok, 0#16 ++ s.spd)]) ∧
  (∀ s : State, (s.runObservations Pseudo.rdfrm.commands).map (fun o => o.response) =
    (List.range 14).map (fun k => some (.ok, 0#24 ++ s.frameByte k)))
end

