-- ==== Sys2Proof/Laws/Memory.lean ====
section
/-! SUPPORT. The frame buffer: what a read gives after a write, and that every operation keeps the canonical form. -/

namespace Sys2Proof.Machine

@[simp] theorem Memory.read_nil (a : Nat) : Memory.read [] a = Memory.unlisted := rfl

theorem Memory.read_cons (c : Host.Cell) (m : Memory) (a : Nat) :
    Memory.read (c :: m) a = if c.1 = a then c.2 else Memory.read m a := rfl

theorem Memory.read_cons_self (c : Host.Cell) (m : Memory) : Memory.read (c :: m) c.1 = c.2 := if_pos rfl

theorem Memory.read_cons_ne {c : Host.Cell} {a : Nat} (h : c.1 ≠ a) (m : Memory) :
    Memory.read (c :: m) a = Memory.read m a := if_neg h

/-- An address the list does not hold reads as an unlisted one. -/
theorem Memory.read_of_not_listed {m : Memory} {a : Nat} (h : ∀ c ∈ m, c.1 ≠ a) : m.read a = Memory.unlisted := by
  induction m with
  | nil => rfl
  | cons c m ih =>
    rw [Memory.read_cons, if_neg (h c (by simp)), ih (fun d hd => h d (by simp [hd]))]

/-- Dropping the cells of one address leaves every other address as it was. -/
theorem Memory.read_filter_ne {a b : Nat} (h : b ≠ a) (m : Memory) :
    Memory.read (m.filter (fun c => c.1 ≠ a)) b = m.read b := by
  induction m with
  | nil => rfl
  | cons c m ih =>
    rw [List.filter_cons]
    by_cases hc : c.1 = a
    · rw [if_neg (by simp [hc]), ih, Memory.read_cons_ne (fun e => h (e.symm.trans hc))]
    · rw [if_pos (by simp [hc]), Memory.read_cons, Memory.read_cons, ih]

/-- A cell put into a list that does not hold its address. -/
theorem Memory.read_insert {m : Memory} {a : Nat} (v : Byte) (h : ∀ c ∈ m, c.1 ≠ a) (b : Nat) :
    (Memory.insert m a v).read b = if b = a then v else m.read b := by
  induction m with
  | nil => simp [Memory.insert, Memory.read_cons, eq_comm]
  | cons c m ih =>
    have hm := ih (fun d hd => h d (by simp [hd]))
    have hc : c.1 ≠ a := h c (by simp)
    unfold Memory.insert
    split
    · simp [Memory.read_cons, eq_comm]
    · rw [Memory.read_cons, hm, Memory.read_cons]
      by_cases hb : b = a
      · simp [hb, hc]
      · simp [hb]

theorem Memory.not_listed_filter (m : Memory) (a : Nat) : ∀ c ∈ m.filter (fun c => c.1 ≠ a), c.1 ≠ a := by
  intro c hc
  simpa using (List.mem_filter.mp hc).2

/-- A byte written is read back, and every other address reads as before. -/
@[simp] theorem Memory.read_write (m : Memory) (a : Nat) (v : Byte) (b : Nat) :
    (m.write a v).read b = if b = a then v else m.read b := by
  unfold Memory.write
  by_cases hb : b = a
  · subst hb
    by_cases hv : v = Memory.unlisted
    · simp only [hv, if_true]
      exact Memory.read_of_not_listed (Memory.not_listed_filter m b)
    · simp only [hv, if_false, if_true]
      rw [Memory.read_insert v (Memory.not_listed_filter m b), if_pos rfl]
  · by_cases hv : v = Memory.unlisted
    · simp only [hv, if_true, hb, if_false]
      exact Memory.read_filter_ne hb m
    · simp only [hv, if_false, hb]
      rw [Memory.read_insert v (Memory.not_listed_filter m a), if_neg hb]
      exact Memory.read_filter_ne hb m

/-- A cell is in the list after an insertion when it is the one inserted or was there. -/
theorem Memory.mem_insert {m : Memory} {a : Nat} {v : Byte} {c : Host.Cell} :
    c ∈ Memory.insert m a v ↔ c = (a, v) ∨ c ∈ m := by
  induction m with
  | nil => simp [Memory.insert]
  | cons d m ih =>
    unfold Memory.insert
    split
    · simp
    · simp only [List.mem_cons, ih]
      tauto

/-- An insertion keeps the addresses rising. -/
theorem Memory.insert_rising {m : Memory} {a : Nat} (v : Byte) (hm : m.Pairwise (fun c d => c.1 < d.1))
    (h : ∀ c ∈ m, c.1 ≠ a) : (Memory.insert m a v).Pairwise (fun c d => c.1 < d.1) := by
  induction m with
  | nil => simp [Memory.insert]
  | cons c m ih =>
    obtain ⟨hc, hm'⟩ := List.pairwise_cons.mp hm
    unfold Memory.insert
    split
    · rename_i hlt
      refine List.pairwise_cons.mpr ⟨fun d hd => ?_, hm⟩
      rcases List.mem_cons.mp hd with rfl | hd
      · exact hlt
      · exact Nat.lt_trans hlt (hc d hd)
    · rename_i hnlt
      refine List.pairwise_cons.mpr ⟨fun d hd => ?_, ih hm' (fun d hd => h d (by simp [hd]))⟩
      rcases Memory.mem_insert.mp hd with rfl | hd
      · have := h c (by simp)
        simp only at hnlt ⊢
        omega
      · exact hc d hd

/-- The canonical form at reset. -/
theorem Memory.nil_wf : Memory.wf [] := by decide

/-- A write of a byte that exists keeps the canonical form. -/
theorem Memory.write_wf {m : Memory} (h : m.wf) {a : Nat} (ha : a < frameBytes) (v : Byte) : (m.write a v).wf := by
  obtain ⟨hp, hl⟩ := h
  have hp' : (m.filter (fun c => c.1 ≠ a)).Pairwise (fun c d => c.1 < d.1) := hp.filter _
  have hl' : ∀ c ∈ m.filter (fun c => c.1 ≠ a), c.1 < frameBytes ∧ c.2 ≠ Memory.unlisted :=
    fun c hc => hl c (List.mem_filter.mp hc).1
  unfold Memory.write
  by_cases hv : v = Memory.unlisted
  · simp only [hv, if_true]
    exact ⟨hp', hl'⟩
  · simp only [hv, if_false]
    refine ⟨Memory.insert_rising v hp' (Memory.not_listed_filter m a), fun c hc => ?_⟩
    rcases Memory.mem_insert.mp hc with rfl | hc
    · exact ⟨ha, hv⟩
    · exact hl' c hc

/-- Storing a field little-endian keeps the canonical form. -/
theorem Memory.writeLE_wf {m : Memory} (h : m.wf) {w : Nat} {a n : Nat} (ha : a + n ≤ frameBytes) (v : BitVec w) :
    (m.writeLE a n v).wf := by
  induction n with
  | zero => exact h
  | succ n ih => exact Memory.write_wf (ih (by omega)) (by omega) _

/-- What a little-endian store leaves at each address (R10). -/
@[simp] theorem Memory.read_writeLE {w : Nat} (m : Memory) (a n : Nat) (v : BitVec w) (b : Nat) :
    (m.writeLE a n v).read b = if a ≤ b ∧ b < a + n then v.extractLsb' (8 * (b - a)) 8 else m.read b := by
  induction n with
  | zero => simp [Memory.writeLE]
  | succ n ih =>
    rw [Memory.writeLE, Memory.read_write, ih]
    by_cases hb : b = a + n
    · subst hb
      simp
    · have : (a ≤ b ∧ b < a + n) ↔ (a ≤ b ∧ b < a + (n + 1)) := by omega
      simp only [hb, if_false, this]

/-- Bit i of a little-endian read is bit i mod 8 of byte i div 8 (R10, R31). -/
theorem Memory.getLsbD_readLE (m : Memory) (a n i : Nat) :
    (m.readLE a n).getLsbD i = (decide (i < 8 * n) && (m.read (a + i / 8)).getLsbD (i % 8)) := by
  induction n generalizing a i with
  | zero => simp [Memory.readLE]
  | succ n ih =>
    have hstep : m.readLE a (n + 1) = (m.readLE (a + 1) n ++ m.read a : BitVec (8 * n + 8)) := rfl
    rw [hstep, BitVec.getLsbD_append]
    by_cases hi : i < 8
    · have h0 : i / 8 = 0 := by omega
      have h1 : i % 8 = i := by omega
      have h2 : i < 8 * (n + 1) := by omega
      simp [hi, h0, h1, h2]
    · have h0 : a + 1 + (i - 8) / 8 = a + i / 8 := by omega
      have h1 : (i - 8) % 8 = i % 8 := by omega
      have h2 : (i - 8 < 8 * n) ↔ (i < 8 * (n + 1)) := by omega
      simp [hi, ih, h0, h1, h2]

/-- A little-endian read depends on the bytes it covers and on nothing else. -/
theorem Memory.readLE_congr {m m' : Memory} {a n : Nat} (h : ∀ b, a ≤ b → b < a + n → m.read b = m'.read b) :
    m.readLE a n = m'.readLE a n := by
  apply BitVec.eq_of_getLsbD_eq
  intro i hi
  rw [Memory.getLsbD_readLE, Memory.getLsbD_readLE, h (a + i / 8) (by omega) (by omega)]

/-- Byte k of a little-endian read is byte k from its address. -/
theorem Memory.extractLsb'_readLE (m : Memory) (a n : Nat) {k : Nat} (hk : k < n) :
    (m.readLE a n).extractLsb' (8 * k) 8 = m.read (a + k) := by
  apply BitVec.eq_of_getLsbD_eq
  intro i hi
  have h0 : (8 * k + i) / 8 = k := by omega
  have h1 : (8 * k + i) % 8 = i := by omega
  have h2 : 8 * k + i < 8 * n := by omega
  rw [BitVec.getLsbD_extractLsb', Memory.getLsbD_readLE, h0, h1]
  simp [hi, h2]

/-- A little-endian read is the vector whose bytes lie at its addresses (R10). -/
theorem Memory.readLE_eq {m : Memory} {a n : Nat} {v : BitVec (8 * n)}
    (h : ∀ k, k < n → m.read (a + k) = v.extractLsb' (8 * k) 8) : m.readLE a n = v := by
  apply BitVec.eq_of_getLsbD_eq
  intro i hi
  have h0 : i / 8 < n := by omega
  have h1 : i % 8 < 8 := by omega
  have h2 : 8 * (i / 8) + i % 8 = i := by omega
  rw [Memory.getLsbD_readLE, h _ h0, BitVec.getLsbD_extractLsb', h2]
  simp only [hi, h1, decide_true, Bool.true_and]

/-- Nothing put before a byte is the byte. -/
theorem empty_append (b : Byte) : ((0#0 ++ b : BitVec (0 + 8)) : BitVec 8) = b := by
  apply BitVec.eq_of_toNat_eq
  rw [BitVec.toNat_append]
  simp

/-- A read of one byte. -/
theorem Memory.readLE_one (m : Memory) (a : Nat) : (m.readLE a 1 : BitVec 8) = m.read a := empty_append _

/-- A read of two bytes: the second is the high one. -/
theorem Memory.readLE_two (m : Memory) (a : Nat) : (m.readLE a 2 : BitVec 16) = m.read (a + 1) ++ m.read a :=
  congrArg (· ++ m.read a) (empty_append (m.read (a + 1)))

/-- A read of four bytes: the fourth is the high one. -/
theorem Memory.readLE_four (m : Memory) (a : Nat) :
    (m.readLE a 4 : BitVec 32) = m.read (a + 3) ++ m.read (a + 2) ++ m.read (a + 1) ++ m.read a :=
  congrArg (fun b : Byte => (b ++ m.read (a + 2) ++ m.read (a + 1) ++ m.read a : BitVec 32))
    (empty_append (m.read (a + 3)))

/-- A list in canonical form reads as unlisted below its first address. -/
theorem Memory.read_below {c : Host.Cell} {m : Memory} (h : (c :: m).Pairwise (fun c d => c.1 < d.1)) {a : Nat}
    (ha : a ≤ c.1) : m.read a = Memory.unlisted :=
  Memory.read_of_not_listed fun d hd => by
    have := (List.pairwise_cons.mp h).1 d hd
    omega

/-- In canonical form, memories that read alike are equal data. -/
theorem Memory.ext_of_wf {m m' : Memory} (h : m.wf) (h' : m'.wf) (e : ∀ a, m.read a = m'.read a) : m = m' := by
  induction m generalizing m' with
  | nil =>
    cases m' with
    | nil => rfl
    | cons d m' => exact absurd ((e d.1).trans (Memory.read_cons_self d m')).symm (h'.2 d (by simp)).2
  | cons c m ih =>
    cases m' with
    | nil => exact absurd ((Memory.read_cons_self c m).symm.trans (e c.1)) (h.2 c (by simp)).2
    | cons d m' =>
      have hkey : c.1 = d.1 := by
        rcases Nat.lt_trichotomy c.1 d.1 with hlt | heq | hgt
        · have := e c.1
          rw [Memory.read_cons_self, Memory.read_cons_ne (Nat.ne_of_gt hlt),
            Memory.read_below h'.1 (Nat.le_of_lt hlt)] at this
          exact absurd this (h.2 c (by simp)).2
        · exact heq
        · have := e d.1
          rw [Memory.read_cons_self, Memory.read_cons_ne (Nat.ne_of_gt hgt),
            Memory.read_below h.1 (Nat.le_of_lt hgt)] at this
          exact absurd this.symm (h'.2 d (by simp)).2
      have hval : c.2 = d.2 := by
        have := e c.1
        rwa [Memory.read_cons_self, hkey, Memory.read_cons_self] at this
      have hrest : m = m' := by
        refine ih ⟨(List.pairwise_cons.mp h.1).2, fun x hx => h.2 x (by simp [hx])⟩
          ⟨(List.pairwise_cons.mp h'.1).2, fun x hx => h'.2 x (by simp [hx])⟩ fun a => ?_
        by_cases ha : c.1 = a
        · rw [Memory.read_below h.1 (by omega), Memory.read_below h'.1 (by omega)]
        · have := e a
          rwa [Memory.read_cons_ne ha, Memory.read_cons_ne (hkey ▸ ha)] at this
      rw [hrest, show c = d from Prod.ext hkey hval]

end Sys2Proof.Machine
end

