-- ==== Sys2Proof/Laws/Codec.lean ====
section
/-! SUPPORT. The frame buffer ENC leaves and the record DEC leaves, byte by byte, and that ENC keeps the canonical form. -/

namespace Sys2Proof.Machine

/-- ENC keeps the canonical form. -/
theorem encodedFrame_wf {s : State} (h : s.frame.wf) : (encodedFrame s).wf := by
  unfold encodedFrame
  refine Memory.writeLE_wf (Memory.writeLE_wf (Memory.writeLE_wf (Memory.writeLE_wf (Memory.writeLE_wf
    (Memory.writeLE_wf h ?_ _) ?_ _) ?_ _) ?_ _) ?_ _) ?_ _ <;> decide

/-- Each frame byte after ENC (R85). -/
theorem read_encodedFrame (s : State) (a : Nat) :
    (encodedFrame s).read a =
      if a < 4 then s.lat.extractLsb' (8 * a) 8
      else if a < 8 then s.lon.extractLsb' (8 * (a - 4)) 8
      else if a < 10 then s.alt.extractLsb' (8 * (a - 8)) 8
      else if a = 10 then s.hdop
      else if a = 11 then s.bat
      else if a < 14 then s.spd.extractLsb' (8 * (a - 12)) 8
      else s.frame.read a := by
  have halt : ∀ k, k < 2 → (trunc 16 s.alt).extractLsb' (8 * k) 8 = s.alt.extractLsb' (8 * k) 8 := by
    intro k hk
    apply BitVec.eq_of_getLsbD_eq
    intro i hi
    simp only [BitVec.getLsbD_extractLsb', BitVec.getLsbD_setWidth]
    have : 8 * k + i < 16 := by omega
    simp [this]
  simp only [encodedFrame, Memory.read_writeLE]
  split_ifs <;> first | rfl | omega | (simp_all; done) | skip
  all_goals exact halt _ (by omega)

/-! Each field as it stands in the frame buffer after ENC. -/

theorem encodedFrame_lat (s : State) : (encodedFrame s).readLE 0 4 = s.lat :=
  Memory.readLE_eq fun k hk => by rw [read_encodedFrame, if_pos (by omega), Nat.zero_add]

theorem encodedFrame_lon (s : State) : (encodedFrame s).readLE 4 4 = s.lon :=
  Memory.readLE_eq fun k hk => by
    rw [read_encodedFrame, if_neg (by omega), if_pos (by omega), Nat.add_sub_cancel_left]

theorem encodedFrame_alt (s : State) : (encodedFrame s).readLE 8 2 = s.alt.extractLsb' 0 16 :=
  Memory.readLE_eq fun k hk => by
    rw [read_encodedFrame, if_neg (by omega), if_neg (by omega), if_pos (by omega), Nat.add_sub_cancel_left]
    apply BitVec.eq_of_getLsbD_eq
    intro i hi
    have : 8 * k + i < 8 * 2 := by omega
    simp only [BitVec.getLsbD_extractLsb', this, hi, decide_true, Bool.true_and, Nat.zero_add]

theorem encodedFrame_hdop (s : State) : (encodedFrame s).readLE 10 1 = s.hdop :=
  (Memory.readLE_one _ _).trans (read_encodedFrame s 10)

theorem encodedFrame_bat (s : State) : (encodedFrame s).readLE 11 1 = s.bat :=
  (Memory.readLE_one _ _).trans (read_encodedFrame s 11)

theorem encodedFrame_spd (s : State) : (encodedFrame s).readLE 12 2 = s.spd :=
  Memory.readLE_eq fun k hk => by
    rw [read_encodedFrame, if_neg (by omega), if_neg (by omega), if_neg (by omega), if_neg (by omega),
      if_neg (by omega), if_pos (by omega), Nat.add_sub_cancel_left]

/-- Sign extension keeps the low half. -/
theorem extractLsb'_sext (v : Half) : (v.signExtend 32).extractLsb' 0 16 = v := by
  apply BitVec.eq_of_getLsbD_eq
  intro i hi
  have : i < 32 := by omega
  simp only [BitVec.getLsbD_extractLsb', BitVec.getLsbD_signExtend, hi, this, decide_true, Bool.true_and,
    Nat.zero_add, if_true]

/-- The low half as a signed number. -/
theorem toInt_lowHalf (v : Word) : (v.extractLsb' 0 16).toInt = (v.toNat : Int).bmod (2 ^ 16) := by
  rw [BitVec.toInt_eq_toNat_bmod, BitVec.extractLsb'_toNat, Nat.shiftRight_zero, Int.natCast_mod]
  exact Int.emod_bmod _ _

end Sys2Proof.Machine
end

