-- ==== Sys2Proof/Laws/Decode.lean ====
section
/-! SUPPORT. The two fields of a command word, and what the operand word has to do with decoding. -/

namespace Sys2Proof

@[simp] theorem opField_append (op arg : Nibble) : opField (op ++ arg) = op := by
  revert op arg
  decide

@[simp] theorem argField_append (op arg : Nibble) : argField (op ++ arg) = arg := by
  revert op arg
  decide

/-- A command word is its two fields (R61). -/
theorem fields_append (cw : BitVec 8) : opField cw ++ argField cw = cw := by
  revert cw
  decide

/-- What error a command word is, where it is one, does not depend on the operand word (R145). -/
theorem decode_illegal_any_wdata {cw : BitVec 8} {w : Word} {e : CommandError} (h : decode ⟨cw, w⟩ = .illegal e)
    (w' : Word) : decode ⟨cw, w'⟩ = .illegal e := by
  unfold decode at *
  simp only [decodePlain, decodeIndexed, decodeAddressed, decodeQuantise] at *
  split at h <;> (try split at h) <;> (try split at h) <;> (try split at h) <;> (try split at h) <;> simp_all

end Sys2Proof
end

