-- ==== Sys2Proof/Laws/Operands.lean ====
section
/-! SUPPORT. Register indices, frame addresses and the division, each said once. -/

namespace Sys2Proof.Machine

@[simp] theorem regOfIndex_regIndex (r : Reg) : regOfIndex (regIndex r) = some r := by cases r <;> rfl

/-- An index names a register when it is that register's. -/
theorem regOfIndex_eq_some {r : Nibble} {x : Reg} : regOfIndex r = some x ↔ r = regIndex x := by
  constructor
  · intro h
    have key : ∀ (r : Nibble) (x : Reg), regOfIndex r = some x → r = regIndex x := by
      intro r x
      cases x <;> revert r <;> decide
    exact key r x h
  · rintro rfl
    simp

/-- "Indices 6 to 15 of the 4-bit index field name no register" (R22). -/
theorem regOfIndex_eq_none {r : Nibble} : regOfIndex r = none ↔ legalIndex r = false := by
  revert r
  decide

theorem legalIndex_regIndex (r : Reg) : legalIndex (regIndex r) = true := by cases r <;> rfl

/-- "Addresses 14 and 15 hold nothing" (R40). -/
theorem frameAddress_eq_none {a : Nibble} : frameAddress a = none ↔ legalAddress a = false := by
  simp [frameAddress, legalAddress]

theorem frameAddress_eq_some {a : Nibble} {k : Nat} : frameAddress a = some k ↔ k = a.toNat ∧ a.toNat < 14 := by
  unfold frameAddress frameBytes
  split <;> simp_all [eq_comm]

/-- A legal address is one of the 14 that exist. -/
theorem legalAddress_eq_true {a : Nibble} : legalAddress a = true ↔ a.toNat < 14 :=
  decide_eq_true_iff

/-- The quotient of R9 is the one that leaves a remainder smaller than the divisor and of the dividend's sign. -/
theorem tdiv_truncated (a : Int) {d : Nat} (hd : 1 ≤ d) : TruncatedQuotient a d (tdiv a d) := by
  have hd' : (0 : Int) < d := by omega
  unfold tdiv
  by_cases ha : 0 ≤ a
  · rw [if_pos ha]
    have h0 := Int.emod_nonneg a hd'.ne'
    refine ⟨a % d, ?_, ?_, fun _ => h0, fun h => ?_⟩
    · rw [mul_comm]; exact (Int.mul_ediv_add_emod a d).symm
    · rw [abs_of_nonneg h0]; exact Int.emod_lt_of_pos a hd'
    · rw [show a = 0 by omega]; simp
  · rw [if_neg ha]
    have h0 := Int.emod_nonneg (-a) hd'.ne'
    have h1 := Int.emod_lt_of_pos (-a) hd'
    have h2 := Int.mul_ediv_add_emod (-a) d
    refine ⟨-(-a % d), ?_, ?_, fun h => absurd h ha, fun _ => by omega⟩
    · rw [neg_mul, mul_comm]; omega
    · rw [abs_neg, abs_of_nonneg h0]; exact h1

/-- The quotient is never larger than the dividend (R101 corner case (a)). -/
theorem tdiv_between (a : Int) {d : Nat} (hd : 1 ≤ d) :
    (0 ≤ a → 0 ≤ tdiv a d ∧ tdiv a d ≤ a) ∧ (a < 0 → a ≤ tdiv a d ∧ tdiv a d ≤ 0) := by
  have hd' : (0 : Int) < d := by omega
  unfold tdiv
  refine ⟨fun ha => ?_, fun ha => ?_⟩
  · rw [if_pos ha]
    exact ⟨Int.ediv_nonneg ha hd'.le, Int.ediv_le_self _ ha⟩
  · rw [if_neg (by omega)]
    have h0 := Int.ediv_nonneg (show 0 ≤ -a by omega) hd'.le
    have h1 := Int.ediv_le_self (d : Int) (show 0 ≤ -a by omega)
    omega

/-- `bits_32` never wraps on a signed quotient (R101 corner case (a)). -/
theorem toInt_quantiseSigned (d : Divisor) (w : Word) :
    (quantiseSigned d w).toInt = tdiv w.toInt d.val := by
  have hb := tdiv_between w.toInt d.pos
  have hlo := BitVec.le_toInt w
  have hhi := BitVec.toInt_lt (x := w)
  rw [show quantiseSigned d w = BitVec.ofInt 32 (tdiv w.toInt d.val) from rfl, BitVec.toInt_ofInt]
  apply Int.bmod_eq_of_le <;> omega

/-- An unsigned quotient is natural-number division, then the low 16 bits (R104). -/
theorem quantiseUnsigned_eq (d : Divisor) (w : Word) :
    quantiseUnsigned d w = BitVec.ofNat 16 (w.toNat / d.val % 65536) := by
  have h : tdiv (w.toNat : Int) d.val = ((w.toNat / d.val : Nat) : Int) := by
    simp [tdiv]
  rw [quantiseUnsigned, bits, uint, h]
  apply BitVec.eq_of_toNat_eq
  rw [BitVec.toNat_ofInt, BitVec.toNat_ofNat]
  omega

/-- Every legal divisor is the one some number gives: nothing is lost in `Config.built`. -/
theorem Divisor.ofSeed_surjective (d : Divisor) : ∃ n, Divisor.ofSeed n = d := by
  obtain ⟨v, hp, hl⟩ := d
  refine ⟨v - 1, ?_⟩
  have : (v - 1) % maxDivisor + 1 = v := by
    rw [Nat.mod_eq_of_lt (by omega)]
    omega
  simp [Divisor.ofSeed, this]

end Sys2Proof.Machine
end

