-- ==== Sys2Proof/Laws/State.lean ====
section
/-! SUPPORT. One lemma per field per update of State, so that no later proof unfolds a record update. -/

namespace Sys2Proof.Machine

variable (s : State)

@[simp] theorem State.respond_lat (r : Resp) (d : Word) : (s.respond r d).lat = s.lat := rfl
@[simp] theorem State.respond_lon (r : Resp) (d : Word) : (s.respond r d).lon = s.lon := rfl
@[simp] theorem State.respond_alt (r : Resp) (d : Word) : (s.respond r d).alt = s.alt := rfl
@[simp] theorem State.respond_hdop (r : Resp) (d : Word) : (s.respond r d).hdop = s.hdop := rfl
@[simp] theorem State.respond_bat (r : Resp) (d : Word) : (s.respond r d).bat = s.bat := rfl
@[simp] theorem State.respond_spd (r : Resp) (d : Word) : (s.respond r d).spd = s.spd := rfl
@[simp] theorem State.respond_frame (r : Resp) (d : Word) : (s.respond r d).frame = s.frame := rfl
@[simp] theorem State.respond_config (r : Resp) (d : Word) : (s.respond r d).config = s.config := rfl
@[simp] theorem State.respond_resp (r : Resp) (d : Word) : (s.respond r d).resp = r := rfl
@[simp] theorem State.respond_rdata (r : Resp) (d : Word) : (s.respond r d).rdata = d := rfl
@[simp] theorem State.respond_pending (r : Resp) (d : Word) : (s.respond r d).pending = s.pending := rfl
@[simp] theorem State.respond_freeCount (r : Resp) (d : Word) : (s.respond r d).freeCount = s.freeCount := rfl

@[simp] theorem State.answer_lat (d : Word) : (s.answer d).lat = s.lat := rfl
@[simp] theorem State.answer_lon (d : Word) : (s.answer d).lon = s.lon := rfl
@[simp] theorem State.answer_alt (d : Word) : (s.answer d).alt = s.alt := rfl
@[simp] theorem State.answer_hdop (d : Word) : (s.answer d).hdop = s.hdop := rfl
@[simp] theorem State.answer_bat (d : Word) : (s.answer d).bat = s.bat := rfl
@[simp] theorem State.answer_spd (d : Word) : (s.answer d).spd = s.spd := rfl
@[simp] theorem State.answer_frame (d : Word) : (s.answer d).frame = s.frame := rfl
@[simp] theorem State.answer_config (d : Word) : (s.answer d).config = s.config := rfl
@[simp] theorem State.answer_resp (d : Word) : (s.answer d).resp = .ok := rfl
@[simp] theorem State.answer_rdata (d : Word) : (s.answer d).rdata = d := rfl
@[simp] theorem State.answer_pending (d : Word) : (s.answer d).pending = s.pending := rfl
@[simp] theorem State.answer_freeCount (d : Word) : (s.answer d).freeCount = s.freeCount := rfl

@[simp] theorem State.raise_lat (e : CommandError) : (s.raise e).lat = s.lat := rfl
@[simp] theorem State.raise_lon (e : CommandError) : (s.raise e).lon = s.lon := rfl
@[simp] theorem State.raise_alt (e : CommandError) : (s.raise e).alt = s.alt := rfl
@[simp] theorem State.raise_hdop (e : CommandError) : (s.raise e).hdop = s.hdop := rfl
@[simp] theorem State.raise_bat (e : CommandError) : (s.raise e).bat = s.bat := rfl
@[simp] theorem State.raise_spd (e : CommandError) : (s.raise e).spd = s.spd := rfl
@[simp] theorem State.raise_frame (e : CommandError) : (s.raise e).frame = s.frame := rfl
@[simp] theorem State.raise_config (e : CommandError) : (s.raise e).config = s.config := rfl
@[simp] theorem State.raise_resp (e : CommandError) : (s.raise e).resp = errorResp e := rfl
@[simp] theorem State.raise_rdata (e : CommandError) : (s.raise e).rdata = 0 := rfl
@[simp] theorem State.raise_pending (e : CommandError) : (s.raise e).pending = s.pending := rfl
@[simp] theorem State.raise_freeCount (e : CommandError) : (s.raise e).freeCount = s.freeCount := rfl

@[simp] theorem State.setFrameByte_lat (a : Nat) (v : Byte) : (s.setFrameByte a v).lat = s.lat := rfl
@[simp] theorem State.setFrameByte_lon (a : Nat) (v : Byte) : (s.setFrameByte a v).lon = s.lon := rfl
@[simp] theorem State.setFrameByte_alt (a : Nat) (v : Byte) : (s.setFrameByte a v).alt = s.alt := rfl
@[simp] theorem State.setFrameByte_hdop (a : Nat) (v : Byte) : (s.setFrameByte a v).hdop = s.hdop := rfl
@[simp] theorem State.setFrameByte_bat (a : Nat) (v : Byte) : (s.setFrameByte a v).bat = s.bat := rfl
@[simp] theorem State.setFrameByte_spd (a : Nat) (v : Byte) : (s.setFrameByte a v).spd = s.spd := rfl
@[simp] theorem State.setFrameByte_frame (a : Nat) (v : Byte) : (s.setFrameByte a v).frame = s.frame.write a v := rfl
@[simp] theorem State.setFrameByte_config (a : Nat) (v : Byte) : (s.setFrameByte a v).config = s.config := rfl
@[simp] theorem State.setFrameByte_resp (a : Nat) (v : Byte) : (s.setFrameByte a v).resp = s.resp := rfl
@[simp] theorem State.setFrameByte_rdata (a : Nat) (v : Byte) : (s.setFrameByte a v).rdata = s.rdata := rfl
@[simp] theorem State.setFrameByte_pending (a : Nat) (v : Byte) : (s.setFrameByte a v).pending = s.pending := rfl
@[simp] theorem State.setFrameByte_freeCount (a : Nat) (v : Byte) : (s.setFrameByte a v).freeCount = s.freeCount := rfl

@[simp] theorem State.afterFetch_lat : (s.afterFetch).lat = s.lat := rfl
@[simp] theorem State.afterFetch_lon : (s.afterFetch).lon = s.lon := rfl
@[simp] theorem State.afterFetch_alt : (s.afterFetch).alt = s.alt := rfl
@[simp] theorem State.afterFetch_hdop : (s.afterFetch).hdop = s.hdop := rfl
@[simp] theorem State.afterFetch_bat : (s.afterFetch).bat = s.bat := rfl
@[simp] theorem State.afterFetch_spd : (s.afterFetch).spd = s.spd := rfl
@[simp] theorem State.afterFetch_frame : (s.afterFetch).frame = s.frame := rfl
@[simp] theorem State.afterFetch_config : (s.afterFetch).config = s.config := rfl
@[simp] theorem State.afterFetch_resp : (s.afterFetch).resp = s.resp := rfl
@[simp] theorem State.afterFetch_rdata : (s.afterFetch).rdata = s.rdata := rfl
@[simp] theorem State.afterFetch_pending : (s.afterFetch).pending = s.pending.tail := rfl
@[simp] theorem State.afterFetch_freeCount : (s.afterFetch).freeCount = s.freeCount := rfl

@[simp] theorem State.present_lat (cs : List Command) : (s.present cs).lat = s.lat := rfl
@[simp] theorem State.present_lon (cs : List Command) : (s.present cs).lon = s.lon := rfl
@[simp] theorem State.present_alt (cs : List Command) : (s.present cs).alt = s.alt := rfl
@[simp] theorem State.present_hdop (cs : List Command) : (s.present cs).hdop = s.hdop := rfl
@[simp] theorem State.present_bat (cs : List Command) : (s.present cs).bat = s.bat := rfl
@[simp] theorem State.present_spd (cs : List Command) : (s.present cs).spd = s.spd := rfl
@[simp] theorem State.present_frame (cs : List Command) : (s.present cs).frame = s.frame := rfl
@[simp] theorem State.present_config (cs : List Command) : (s.present cs).config = s.config := rfl
@[simp] theorem State.present_resp (cs : List Command) : (s.present cs).resp = s.resp := rfl
@[simp] theorem State.present_rdata (cs : List Command) : (s.present cs).rdata = s.rdata := rfl
@[simp] theorem State.present_pending (cs : List Command) : (s.present cs).pending = cs.map commandInput := rfl
@[simp] theorem State.present_freeCount (cs : List Command) : (s.present cs).freeCount = s.freeCount := rfl

@[simp] theorem State.takeReset_lat : (s.takeReset).lat = 0 := rfl
@[simp] theorem State.takeReset_lon : (s.takeReset).lon = 0 := rfl
@[simp] theorem State.takeReset_alt : (s.takeReset).alt = 0 := rfl
@[simp] theorem State.takeReset_hdop : (s.takeReset).hdop = 0 := rfl
@[simp] theorem State.takeReset_bat : (s.takeReset).bat = 0 := rfl
@[simp] theorem State.takeReset_spd : (s.takeReset).spd = 0 := rfl
@[simp] theorem State.takeReset_frame : (s.takeReset).frame = [] := rfl
@[simp] theorem State.takeReset_config : (s.takeReset).config = s.config := rfl
@[simp] theorem State.takeReset_resp : (s.takeReset).resp = Config.freeResp s.freeCount := rfl
@[simp] theorem State.takeReset_rdata : (s.takeReset).rdata = Config.freeRdata s.freeCount := rfl
@[simp] theorem State.takeReset_pending : (s.takeReset).pending = s.pending := rfl
@[simp] theorem State.takeReset_freeCount : (s.takeReset).freeCount = s.freeCount + 1 := rfl

@[simp] theorem decodedRecord_lat : (decodedRecord s).lat = s.frame.readLE 0 4 := rfl
@[simp] theorem decodedRecord_lon : (decodedRecord s).lon = s.frame.readLE 4 4 := rfl
@[simp] theorem decodedRecord_alt : (decodedRecord s).alt = sext 32 (s.frame.readLE 8 2) := rfl
@[simp] theorem decodedRecord_hdop : (decodedRecord s).hdop = s.frame.readLE 10 1 := rfl
@[simp] theorem decodedRecord_bat : (decodedRecord s).bat = s.frame.readLE 11 1 := rfl
@[simp] theorem decodedRecord_spd : (decodedRecord s).spd = s.frame.readLE 12 2 := rfl
@[simp] theorem decodedRecord_frame : (decodedRecord s).frame = s.frame := rfl
@[simp] theorem decodedRecord_config : (decodedRecord s).config = s.config := rfl
@[simp] theorem decodedRecord_resp : (decodedRecord s).resp = s.resp := rfl
@[simp] theorem decodedRecord_rdata : (decodedRecord s).rdata = s.rdata := rfl
@[simp] theorem decodedRecord_pending : (decodedRecord s).pending = s.pending := rfl
@[simp] theorem decodedRecord_freeCount : (decodedRecord s).freeCount = s.freeCount := rfl

/-! A record register written: the update it is, and the fields it leaves. -/

@[simp] theorem State.setReg_lat (v : Word) : s.setReg .lat v = { s with lat := v } := rfl
@[simp] theorem State.reg_lat : s.reg .lat = s.lat := rfl
@[simp] theorem State.setReg_lon (v : Word) : s.setReg .lon v = { s with lon := v } := rfl
@[simp] theorem State.reg_lon : s.reg .lon = s.lon := rfl
@[simp] theorem State.setReg_alt (v : Word) : s.setReg .alt v = { s with alt := v } := rfl
@[simp] theorem State.reg_alt : s.reg .alt = s.alt := rfl
@[simp] theorem State.setReg_hdop (v : Byte) : s.setReg .hdop v = { s with hdop := v } := rfl
@[simp] theorem State.reg_hdop : s.reg .hdop = s.hdop := rfl
@[simp] theorem State.setReg_bat (v : Byte) : s.setReg .bat v = { s with bat := v } := rfl
@[simp] theorem State.reg_bat : s.reg .bat = s.bat := rfl
@[simp] theorem State.setReg_spd (v : Half) : s.setReg .spd v = { s with spd := v } := rfl
@[simp] theorem State.reg_spd : s.reg .spd = s.spd := rfl

@[simp] theorem State.setReg_keeps_frame (r : Reg) (v : BitVec (regWidth r)) :
    (s.setReg r v).frame = s.frame := by cases r <;> rfl

@[simp] theorem State.setReg_keeps_config (r : Reg) (v : BitVec (regWidth r)) :
    (s.setReg r v).config = s.config := by cases r <;> rfl

@[simp] theorem State.setReg_keeps_resp (r : Reg) (v : BitVec (regWidth r)) :
    (s.setReg r v).resp = s.resp := by cases r <;> rfl

@[simp] theorem State.setReg_keeps_rdata (r : Reg) (v : BitVec (regWidth r)) :
    (s.setReg r v).rdata = s.rdata := by cases r <;> rfl

@[simp] theorem State.setReg_keeps_pending (r : Reg) (v : BitVec (regWidth r)) :
    (s.setReg r v).pending = s.pending := by cases r <;> rfl

@[simp] theorem State.setReg_keeps_freeCount (r : Reg) (v : BitVec (regWidth r)) :
    (s.setReg r v).freeCount = s.freeCount := by cases r <;> rfl

/-- A register reads as what was last written to it (R22). -/
@[simp] theorem State.reg_setReg_self (r : Reg) (v : BitVec (regWidth r)) : (s.setReg r v).reg r = v := by
  cases r <;> rfl

/-- "None aliases another" (R22). -/
theorem State.reg_setReg_ne {q r : Reg} (h : q ≠ r) (v : BitVec (regWidth r)) : (s.setReg r v).reg q = s.reg q := by
  cases r <;> cases q <;> first | rfl | exact absurd rfl h

/-- The registers see none of the other updates. -/
@[simp] theorem State.reg_respond (r : Resp) (d : Word) (q : Reg) : (s.respond r d).reg q = s.reg q := by
  cases q <;> rfl

@[simp] theorem State.reg_answer (d : Word) (q : Reg) : (s.answer d).reg q = s.reg q := by cases q <;> rfl

@[simp] theorem State.reg_raise (e : CommandError) (q : Reg) : (s.raise e).reg q = s.reg q := by cases q <;> rfl

@[simp] theorem State.reg_setFrameByte (a : Nat) (v : Byte) (q : Reg) :
    (s.setFrameByte a v).reg q = s.reg q := by cases q <;> rfl

@[simp] theorem State.reg_afterFetch (q : Reg) : s.afterFetch.reg q = s.reg q := by cases q <;> rfl

/-- Two states are equal when their registers and their other fields are. -/
theorem State.ext_reg {s t : State} (hr : ∀ q, t.reg q = s.reg q) (hf : t.frame = s.frame)
    (hc : t.config = s.config) (hp : t.resp = s.resp) (hd : t.rdata = s.rdata) (hq : t.pending = s.pending)
    (hn : t.freeCount = s.freeCount) : t = s := by
  have h0 := hr .lat
  have h1 := hr .lon
  have h2 := hr .alt
  have h3 := hr .hdop
  have h4 := hr .bat
  have h5 := hr .spd
  cases s
  cases t
  simp only [State.reg] at h0 h1 h2 h3 h4 h5
  simp_all

end Sys2Proof.Machine
end

