-- ==== Sys2Proof/Laws/Exec.lean ====
section
/-! SUPPORT. Each meaning as one equation between states, and what every command has in common. -/

namespace Sys2Proof.Machine

/-- WRR on a register's index. -/
theorem execWrr_regIndex (r : Reg) (w : Word) (s : State) :
    execWrr (regIndex r) w s = .next ((s.setReg r (registerOperand r w)).answer 0) := by
  simp [execWrr]

/-- WRR on an index that names no register. -/
theorem execWrr_illegal {r : Nibble} (h : legalIndex r = false) (w : Word) (s : State) :
    execWrr r w s = .next (s.raise (.illegalRegister r)) := by
  rw [execWrr, regOfIndex_eq_none.mpr h]

/-- RDR on a register's index. -/
theorem execRdr_regIndex (r : Reg) (s : State) :
    execRdr (regIndex r) s = .next (s.answer (zext 32 (s.reg r))) := by
  simp [execRdr]

/-- RDR on an index that names no register. -/
theorem execRdr_illegal {r : Nibble} (h : legalIndex r = false) (s : State) :
    execRdr r s = .next (s.raise (.illegalRegister r)) := by
  rw [execRdr, regOfIndex_eq_none.mpr h]

/-- WRB on an address that exists. -/
theorem execWrb_legal {a : Nibble} (h : a.toNat < 14) (w : Word) (s : State) :
    execWrb a w s = .next ((s.setFrameByte a.toNat (byteOperand w)).answer 0) := by
  rw [execWrb, frameAddress_eq_some.mpr ⟨rfl, h⟩]

/-- WRB on an address that does not exist. -/
theorem execWrb_illegal {a : Nibble} (h : legalAddress a = false) (w : Word) (s : State) :
    execWrb a w s = .next (s.raise (.illegalAddress a)) := by
  rw [execWrb, frameAddress_eq_none.mpr h]

/-- RDB on an address that exists. -/
theorem execRdb_legal {a : Nibble} (h : a.toNat < 14) (s : State) :
    execRdb a s = .next (s.answer (zext 32 (s.frameByte a.toNat))) := by
  rw [execRdb, frameAddress_eq_some.mpr ⟨rfl, h⟩]

/-- RDB on an address that does not exist. -/
theorem execRdb_illegal {a : Nibble} (h : legalAddress a = false) (s : State) :
    execRdb a s = .next (s.raise (.illegalAddress a)) := by
  rw [execRdb, frameAddress_eq_none.mpr h]

/-- Everything one command can do: answer with a result, write one register, write one frame byte, encode, decode, or
raise an error on an index or address that names nothing. -/
theorem exec_cases (i : Instr) (s : State) :
    (∃ d, exec i s = .next (s.answer d) ∧ ∀ r, i.writesReg r = false) ∨
    (∃ r v, exec i s = .next ((s.setReg r v).answer 0) ∧ i.writesReg r = true) ∨
    (∃ k v, k < 14 ∧ exec i s = .next ((s.setFrameByte k v).answer 0) ∧ i.writesByte k = true) ∨
    (i = .enc ∧ exec i s = .next (State.answer { s with frame := encodedFrame s } 0)) ∨
    (i = .dec ∧ exec i s = .next ((decodedRecord s).answer 0)) ∨
    (∃ e, exec i s = .next (s.raise e) ∧ i.wellFormed = false) := by
  cases i with
  | nop => exact .inl ⟨0, rfl, fun _ => rfl⟩
  | wrr r w =>
    by_cases h : legalIndex r = false
    · exact .inr (.inr (.inr (.inr (.inr ⟨_, execWrr_illegal h w s, h⟩))))
    · obtain ⟨x, hx⟩ := Option.ne_none_iff_exists'.mp (fun e => h (regOfIndex_eq_none.mp e))
      obtain rfl := regOfIndex_eq_some.mp hx
      exact .inr (.inl ⟨x, _, execWrr_regIndex x w s, by simp [Instr.writesReg]⟩)
  | rdr r =>
    by_cases h : legalIndex r = false
    · exact .inr (.inr (.inr (.inr (.inr ⟨_, execRdr_illegal h s, h⟩))))
    · obtain ⟨x, hx⟩ := Option.ne_none_iff_exists'.mp (fun e => h (regOfIndex_eq_none.mp e))
      obtain rfl := regOfIndex_eq_some.mp hx
      exact .inl ⟨_, execRdr_regIndex x s, fun _ => rfl⟩
  | wrb a w =>
    by_cases h : legalAddress a = false
    · exact .inr (.inr (.inr (.inr (.inr ⟨_, execWrb_illegal h w s, h⟩))))
    · have h' := legalAddress_eq_true.mp (Bool.eq_true_of_not_eq_false h)
      exact .inr (.inr (.inl ⟨a.toNat, _, h', execWrb_legal h' w s, by simp [Instr.writesByte]⟩))
  | rdb a =>
    by_cases h : legalAddress a = false
    · exact .inr (.inr (.inr (.inr (.inr ⟨_, execRdb_illegal h s, h⟩))))
    · have h' := legalAddress_eq_true.mp (Bool.eq_true_of_not_eq_false h)
      exact .inl ⟨_, execRdb_legal h' s, fun _ => rfl⟩
  | enc => exact .inr (.inr (.inr (.inl ⟨rfl, rfl⟩)))
  | dec => exact .inr (.inr (.inr (.inr (.inl ⟨rfl, rfl⟩))))
  | qlat w => exact .inr (.inl ⟨.lat, _, rfl, rfl⟩)
  | qlon w => exact .inr (.inl ⟨.lon, _, rfl, rfl⟩)
  | qalt w => exact .inr (.inl ⟨.alt, _, rfl, rfl⟩)
  | qspd w => exact .inr (.inl ⟨.spd, _, rfl, rfl⟩)

/-- Every command ends in a next state. -/
theorem exec_completes (i : Instr) (s : State) : ∃ t, exec i s = .next t := by
  rcases exec_cases i s with ⟨d, h, -⟩ | ⟨r, v, h, -⟩ | ⟨k, v, -, h, -⟩ | ⟨-, h⟩ | ⟨-, h⟩ | ⟨e, h, -⟩ <;> exact ⟨_, h⟩

/-- A command leaves what surrounds the block alone. -/
theorem exec_keeps_surroundings {i : Instr} {s t : State} (h : exec i s = .next t) :
    t.config = s.config ∧ t.pending = s.pending ∧ t.freeCount = s.freeCount := by
  rcases exec_cases i s with ⟨d, e, -⟩ | ⟨r, v, e, -⟩ | ⟨k, v, -, e, -⟩ | ⟨-, e⟩ | ⟨-, e⟩ | ⟨x, e, -⟩ <;>
    (rw [e] at h; cases h; simp)

end Sys2Proof.Machine
end

