-- ==== Sys2Proof/Laws/PerInstr.lean ====
section
/-! SUPPORT. Statements about every instruction as syntax, one lemma per constructor (LAWS.json names the families). -/

namespace Sys2Proof.Laws

/-- An instruction is well formed exactly when its command word is one of the 47 of R63. -/
def EncodesLegalWord.Statement (i : Instr) : Prop := i.wellFormed = legalWord (encode i).cw

theorem EncodesLegalWord.nop : EncodesLegalWord.Statement .nop := by
  unfold EncodesLegalWord.Statement
  decide

theorem EncodesLegalWord.wrr (r : Nibble) (w : Word) : EncodesLegalWord.Statement (.wrr r w) := by
  have h : ∀ r : Nibble, legalIndex r = legalWord (commandWord 0x1 r) := by decide
  exact h r

theorem EncodesLegalWord.rdr (r : Nibble) : EncodesLegalWord.Statement (.rdr r) := by
  have h : ∀ r : Nibble, legalIndex r = legalWord (commandWord 0x2 r) := by decide
  exact h r

theorem EncodesLegalWord.wrb (a : Nibble) (w : Word) : EncodesLegalWord.Statement (.wrb a w) := by
  have h : ∀ a : Nibble, legalAddress a = legalWord (commandWord 0x3 a) := by decide
  exact h a

theorem EncodesLegalWord.rdb (a : Nibble) : EncodesLegalWord.Statement (.rdb a) := by
  have h : ∀ a : Nibble, legalAddress a = legalWord (commandWord 0x4 a) := by decide
  exact h a

theorem EncodesLegalWord.enc : EncodesLegalWord.Statement .enc := by
  unfold EncodesLegalWord.Statement
  decide

theorem EncodesLegalWord.dec : EncodesLegalWord.Statement .dec := by
  unfold EncodesLegalWord.Statement
  decide

theorem EncodesLegalWord.qlat (w : Word) : EncodesLegalWord.Statement (.qlat w) := by
  have h : true = legalWord (commandWord 0x7 0) := by decide
  exact h

theorem EncodesLegalWord.qlon (w : Word) : EncodesLegalWord.Statement (.qlon w) := by
  have h : true = legalWord (commandWord 0x7 1) := by decide
  exact h

theorem EncodesLegalWord.qalt (w : Word) : EncodesLegalWord.Statement (.qalt w) := by
  have h : true = legalWord (commandWord 0x7 2) := by decide
  exact h

theorem EncodesLegalWord.qspd (w : Word) : EncodesLegalWord.Statement (.qspd w) := by
  have h : true = legalWord (commandWord 0x7 5) := by decide
  exact h

end Sys2Proof.Laws
end

