-- ==== Sys2Proof/Laws/Step.lean ====
section
/-! SUPPORT. What a step can be, and the shape of a run. -/

namespace Sys2Proof.Machine

/-- A step with nothing presented. -/
theorem step_of_nothing {s : State} (h : s.pending = []) : step s = .fault .noCommand := by
  simp [step, h]

/-- A step with a reset requested. -/
theorem step_of_reset {s : State} {x : PortInput} {rest : List PortInput} (h : s.pending = x :: rest)
    (hx : x.reset = true) : step s = .next s.afterFetch.takeReset := by
  simp [step, h, hx]

/-- A step with a legal command presented. -/
theorem step_of_legal {s : State} {x : PortInput} {rest : List PortInput} (h : s.pending = x :: rest)
    (hx : x.reset = false) {i : Instr} (hi : decode x.command = .legal i) : step s = exec i s.afterFetch := by
  simp [step, h, hx, hi]

/-- A step with an illegal command word presented. -/
theorem step_of_illegal {s : State} {x : PortInput} {rest : List PortInput} (h : s.pending = x :: rest)
    (hx : x.reset = false) {e : CommandError} (he : decode x.command = .illegal e) :
    step s = .next (s.afterFetch.raise e) := by
  simp [step, h, hx, he]

/-- Everything a step that answers a next state can be. -/
theorem step_cases {s t : State} (h : step s = .next t) :
    ∃ x rest, s.pending = x :: rest ∧
      (x.reset = true ∧ t = s.afterFetch.takeReset ∨
       x.reset = false ∧ (∃ i, decode x.command = .legal i ∧ exec i s.afterFetch = .next t) ∨
       x.reset = false ∧ ∃ e, decode x.command = .illegal e ∧ t = s.afterFetch.raise e) := by
  cases hp : s.pending with
  | nil => rw [step_of_nothing hp] at h; cases h
  | cons x rest =>
    refine ⟨x, rest, rfl, ?_⟩
    cases hx : x.reset with
    | true => rw [step_of_reset hp hx] at h; cases h; exact .inl ⟨rfl, rfl⟩
    | false =>
      cases hd : decode x.command with
      | legal i => rw [step_of_legal hp hx hd] at h; exact .inr (.inl ⟨rfl, i, rfl, h⟩)
      | illegal e => rw [step_of_illegal hp hx hd] at h; cases h; exact .inr (.inr ⟨rfl, e, rfl, rfl⟩)

/-- Whatever is presented, the step completes. -/
theorem step_completes {s : State} (h : s.pending ≠ []) : ∃ t, step s = .next t := by
  cases hp : s.pending with
  | nil => exact absurd hp h
  | cons x rest =>
    cases hx : x.reset with
    | true => exact ⟨_, step_of_reset hp hx⟩
    | false =>
      cases hd : decode x.command with
      | legal i => rw [step_of_legal hp hx hd]; exact exec_completes i _
      | illegal e => exact ⟨_, step_of_illegal hp hx hd⟩

/-- A step takes one input from the port. -/
theorem step_pending {s t : State} (h : step s = .next t) : t.pending = s.pending.tail := by
  obtain ⟨x, rest, -, ⟨-, rfl⟩ | ⟨-, i, -, e⟩ | ⟨-, e, -, rfl⟩⟩ := step_cases h
  · rfl
  · rw [(exec_keeps_surroundings e).2.1]; rfl
  · rfl

/-- A command of the map has no error. -/
theorem commandError_of_legal {s : State} {x : PortInput} {rest : List PortInput} (h : s.pending = x :: rest)
    (hr : x.reset = false) {i : Instr} (hd : decode x.command = .legal i) : s.commandError = none := by
  simp [State.commandError, h, hr, hd]

/-- A word outside the map has the error the decoder names. -/
theorem commandError_of_illegal {s : State} {x : PortInput} {rest : List PortInput} (h : s.pending = x :: rest)
    (hr : x.reset = false) {e : CommandError} (hd : decode x.command = .illegal e) : s.commandError = some e := by
  simp [State.commandError, h, hr, hd]

/-- A reset executes no command, so there is none to err. -/
theorem commandFault_of_reset {s : State} {x : PortInput} {rest : List PortInput} (h : s.pending = x :: rest)
    (hr : x.reset = true) : s.commandFault = none := by
  simp [State.commandFault, State.commandError, h, hr]

/-- A command of the map has no fault. -/
theorem commandFault_of_legal {s : State} {x : PortInput} {rest : List PortInput} (h : s.pending = x :: rest)
    (hr : x.reset = false) {i : Instr} (hd : decode x.command = .legal i) : s.commandFault = none := by
  simp [State.commandFault, h, commandError_of_legal h hr hd]

/-- A word outside the map has the fault that names it and its error. -/
theorem commandFault_of_illegal {s : State} {x : PortInput} {rest : List PortInput} (h : s.pending = x :: rest)
    (hr : x.reset = false) {e : CommandError} (hd : decode x.command = .illegal e) :
    s.commandFault = some (errorFault x.command.cw e) := by
  simp [State.commandFault, h, commandError_of_illegal h hr hd]

/-- The fault of an error names the command word it was made for. -/
@[simp] theorem errorFault_command (cw : BitVec 8) (e : CommandError) : (errorFault cw e).command = some cw := by
  cases e <;> rfl

@[simp] theorem faults_zero (s : State) : faults 0 s = [] := rfl

/-- One step taken off the front of the faults of a run. -/
theorem faults_succ {s t : State} (h : step s = .next t) (k : Nat) :
    faults (k + 1) s = s.commandFault.toList ++ faults k t := by
  simp [faults, h]

@[simp] theorem stateAfter_zero (s : State) : stateAfter 0 s = s := rfl

/-- One step taken off the front of a run. -/
theorem stateAfter_succ {s t : State} (h : step s = .next t) (k : Nat) : stateAfter (k + 1) s = stateAfter k t := by
  simp [stateAfter, h]

/-- One step taken off the front of what a run shows. -/
theorem observations_succ {s t : State} (h : step s = .next t) (k : Nat) :
    observations (k + 1) s = observe s t :: observations k t := by
  simp [observations, h]

end Sys2Proof.Machine
end

