-- ==== Sys2Proof/Laws/Run.lean ====
section
/-! SUPPORT. A run of a command sequence, one command at a time, and what holds along a run. -/

namespace Sys2Proof.Machine

/-- What is still to come on the port has no part in what a command does. -/
theorem exec_pending {i : Instr} {s t : State} (h : exec i s = .next t) (p : List PortInput) :
    exec i { s with pending := p } = .next { t with pending := p } := by
  cases i with
  | nop => cases h; rfl
  | wrr r w =>
    simp only [exec, execWrr] at h ⊢
    split at h <;> cases h
    · rfl
    · rename_i x _
      cases x <;> rfl
  | rdr r =>
    simp only [exec, execRdr] at h ⊢
    split at h <;> cases h
    · rfl
    · rename_i x _
      cases x <;> rfl
  | wrb a w =>
    simp only [exec, execWrb] at h ⊢
    split at h <;> cases h <;> rfl
  | rdb a =>
    simp only [exec, execRdb] at h ⊢
    split at h <;> cases h <;> rfl
  | enc => cases h; rfl
  | dec => cases h; rfl
  | qlat w => cases h; rfl
  | qlon w => cases h; rfl
  | qalt w => cases h; rfl
  | qspd w => cases h; rfl

/-- The first step of a run of legal commands is the meaning of the first command. -/
theorem step_present_cons {s t : State} {c : Command} {i : Instr} (hd : decode c = .legal i) (h : exec i s = .next t)
    (cs : List Command) : step (s.present (c :: cs)) = .next (t.present cs) := by
  have hp : (s.present (c :: cs)).pending = commandInput c :: cs.map commandInput := rfl
  rw [step_of_legal hp rfl hd]
  exact exec_pending h _

/-- A run of a legal command and more: the command, then a run of the rest. -/
theorem State.runFinal_cons {s t : State} {c : Command} {i : Instr} (hd : decode c = .legal i)
    (h : exec i s = .next t) (cs : List Command) : s.runFinal (c :: cs) = t.runFinal cs :=
  stateAfter_succ (step_present_cons hd h cs) cs.length

/-- What a run of a legal command and more shows. -/
theorem State.runObservations_cons {s t : State} {c : Command} {i : Instr} (hd : decode c = .legal i)
    (h : exec i s = .next t) (cs : List Command) :
    s.runObservations (c :: cs) = ⟨some (t.resp, t.rdata), t.framePort⟩ :: t.runObservations cs := by
  have := observations_succ (step_present_cons hd h cs) cs.length
  simpa [State.runObservations, observe, State.present, commandInput, State.framePort] using this

/-- A run of nothing is over. -/
theorem State.runFinal_nil (s : State) : s.runFinal [] = s.present [] := rfl

theorem State.runObservations_nil (s : State) : s.runObservations [] = [] := rfl

/-- One step taken off the front of the host's run. -/
theorem core_run_succ {s t : State} (h : step s = .next t) (k : Nat) :
    Host.Core.run Sys2Proof.core (k + 1) s = Host.Core.run Sys2Proof.core k t := by
  have h' : Sys2Proof.core.step s = .next t := h
  simp only [Host.Core.run, h']

/-- The induction along a run, said once: what holds of a state and itself, and is carried back over one step whose
input satisfies Q, holds of a state and every state of a run whose inputs all satisfy Q. -/
theorem stateAfter_induction {P : State → State → Prop} {Q : PortInput → Prop} (refl : ∀ s, P s s)
    (back : ∀ s t u x rest, s.pending = x :: rest → Q x → step s = .next t → P t u → P s u) (k : Nat) (s : State)
    (h : ∀ x ∈ s.pending, Q x) : P s (stateAfter k s) := by
  induction k generalizing s with
  | zero => exact refl s
  | succ k ih =>
    cases hp : s.pending with
    | nil =>
      have : stateAfter (k + 1) s = s := by simp [stateAfter, step_of_nothing hp]
      rw [this]
      exact refl s
    | cons x rest =>
      obtain ⟨t, ht⟩ := step_completes (s := s) (by simp [hp])
      rw [stateAfter_succ ht]
      refine back s t _ x rest hp (h x (by simp [hp])) ht (ih t fun y hy => h y ?_)
      rw [step_pending ht, hp] at hy
      rw [hp]
      exact List.mem_cons_of_mem _ hy

end Sys2Proof.Machine
end

