-- ==== Sys2Proof/Tests/Slice0.lean ====
section
/-! SUPPORT. The model's own tests. Expected results are the worked examples and vectors of spec/ (each named), or hand
calculation from its tables; the witnesses show that the hypotheses of the statements are met. -/

namespace Sys2Proof.Tests

open Sys2Proof.Machine

/-! ## Helpers -/

/-- The divisors of the quantising vectors of 95_test_vectors.md section 2.3. -/
def vectorConfig : Config where
  degDiv := ⟨100, by decide, by decide⟩
  altDiv := ⟨1000, by decide, by decide⟩
  spdDiv := ⟨1000, by decide, by decide⟩

/-- A state with a record and a frame. -/
def small (lat lon alt : Word) (hdop bat : Byte) (spd : Half) (frame : Memory) : State where
  lat := lat
  lon := lon
  alt := alt
  hdop := hdop
  bat := bat
  spd := spd
  frame := frame
  config := vectorConfig
  resp := .ok
  rdata := 0
  pending := []
  freeCount := 0

/-- A record and a frame that differ in every field (the record is V-ENC-2's, the frame is V-DEC-2's in part). -/
def sample : State := small 0x00160152 0x00B8A39E 0x39 0x0C 0x57 0x03 [(0, 0x80), (9, 0x80), (13, 0x12)]

/-- A frame given as its fourteen bytes. -/
def frameOf (bs : List Byte) : Memory := (bs.zipIdx).foldl (fun m p => m.write p.2 p.1) []

/-- A condition on the next state. -/
def nextIs (o : Host.Outcome State Fault Refusal) (p : State → Bool) : Bool :=
  match o with
  | .next t => p t
  | .fault _ => false
  | .refused _ => false

/-- The fourteen bytes of the frame buffer. -/
def bytes (s : State) : List Byte := (List.range 14).map s.frameByte

/-- The record, as 95_test_vectors.md writes it. -/
def record (s : State) : Int × Int × Int × Nat × Nat × Nat :=
  (sint s.lat, sint s.lon, sint s.alt, uint s.hdop, uint s.bat, uint s.spd)

/-! ## WellFormed: an ill-formed term for each check -/

theorem test_wellFormed_refuses_wrr_index_6 : (Instr.wrr 6 0).wellFormed = false := by decide
theorem test_wellFormed_refuses_rdr_index_15 : (Instr.rdr 15).wellFormed = false := by decide
theorem test_wellFormed_refuses_wrb_address_14 : (Instr.wrb 14 0).wellFormed = false := by decide
theorem test_wellFormed_refuses_rdb_address_15 : (Instr.rdb 15).wellFormed = false := by decide
theorem test_wellFormed_takes_last_index_and_address :
    (Instr.wrr 5 0).wellFormed = true ∧ (Instr.wrb 13 0).wellFormed = true := by decide

/-! ## Decode: a word of the table of R63 for every constructor -/

theorem test_decode_nop : decode ⟨0b0000_0000, 0xDEADBEEF⟩ = .legal .nop := by decide
theorem test_decode_wrr : decode ⟨0b0001_0101, 0x00011170⟩ = .legal (.wrr 5 0x11170) := by decide
theorem test_decode_rdr : decode ⟨0b0010_0010, 0⟩ = .legal (.rdr 2) := by decide
theorem test_decode_wrb : decode ⟨0b0011_1101, 0xAB⟩ = .legal (.wrb 13 0xAB) := by decide
theorem test_decode_rdb : decode ⟨0b0100_1011, 0⟩ = .legal (.rdb 11) := by decide
theorem test_decode_enc : decode ⟨0b0101_0000, 0⟩ = .legal .enc := by decide
theorem test_decode_dec : decode ⟨0b0110_0000, 0⟩ = .legal .dec := by decide
theorem test_decode_qlat : decode ⟨0b0111_0000, 1⟩ = .legal (.qlat 1) := by decide
theorem test_decode_qlon : decode ⟨0b0111_0001, 2⟩ = .legal (.qlon 2) := by decide
theorem test_decode_qalt : decode ⟨0b0111_0010, 3⟩ = .legal (.qalt 3) := by decide
theorem test_decode_qspd : decode ⟨0b0111_0101, 4⟩ = .legal (.qspd 4) := by decide

/-- V-ERR-1, -4, -9, -11: the error is named with its info. -/
theorem test_decode_rejects_by_name :
    decode ⟨0x16, 0x12345678⟩ = .illegal (.illegalRegister 6) ∧
    decode ⟨0x3E, 0xFF⟩ = .illegal (.illegalAddress 14) ∧
    decode ⟨0x73, 5⟩ = .illegal (.illegalRegister 3) ∧
    decode ⟨0x8E, 0⟩ = .illegal (.illegalOpcode 0x8E) := by decide

/-- V-ERR-13: the nearest legal neighbour of each illegal range. -/
theorem test_decode_legal_neighbours :
    [0x15, 0x25, 0x3D, 0x4D, 0x75].all (fun w => (decodeTableWord 8 w).isSome) = true := by decide

/-- The opcode-table word of QSPD, presented after reset, is what the next step runs (log entry 8). -/
theorem test_withFetchWord_runs_next :
    nextIs (step (State.reset.withFetchWord 8 0x4D)) (fun t => t.resp == .ok && t.rdata == 0 && t.pending == []) =
      true := by decide

/-! ## The commands -/

/-- V-FRM-8. -/
theorem test_nop_answers_ok :
    nextIs (step { sample with pending := [⟨false, ⟨0x00, 0xDEADBEEF⟩⟩] })
      (fun t => t.resp == .ok && t.rdata == 0 && record t == record sample && bytes t == bytes sample) = true := by
  decide

/-- V-REG-3: WRR SPD, 70000 stores 4464. -/
theorem test_wrr_drops_high_bits : nextIs (exec (.wrr 5 70000) sample) (fun t => t.spd == 4464) = true := by decide

/-- V-REG-6: a signed register takes all 32 bits. -/
theorem test_wrr_alt_full_width :
    nextIs (exec (.wrr 2 0xFFFFFFF4) sample) (fun t => t.alt == 0xFFFFFFF4 && t.lon == sample.lon) = true := by decide

/-- V-REG-9: HDOP = 255 reads zero-extended. -/
theorem test_rdr_zero_extends :
    nextIs (exec (.rdr 3) { sample with hdop := 255 }) (fun t => t.rdata == 0x000000FF) = true := by decide

/-- V-REG-10: LON = −12241942 reads as it is. -/
theorem test_rdr_signed_as_is :
    nextIs (exec (.rdr 1) { sample with lon := 0xFF4533EA }) (fun t => t.rdata == 0xFF4533EA) = true := by decide

/-- V-FRM-2: only `wdata[7:0]` is stored, at the one address. -/
theorem test_wrb_one_byte :
    nextIs (exec (.wrb 3 0x1234) sample)
      (fun t => bytes t == [0x80, 0, 0, 0x34, 0, 0, 0, 0, 0, 0x80, 0, 0, 0, 0x12]) = true := by decide

/-- Writing the byte an unlisted address reads as keeps the canonical form. -/
theorem test_wrb_zero_unlists : nextIs (exec (.wrb 9 0x100) sample) (fun t => t.frame == [(0, 0x80), (13, 0x12)]) =
    true := by decide

/-- V-FRM-3: FB[3] = 0xFF reads zero-extended. -/
theorem test_rdb_zero_extends :
    nextIs (exec (.rdb 3) { sample with frame := [(3, 0xFF)] }) (fun t => t.rdata == 0x000000FF) = true := by decide

/-- V-ENC-4. -/
theorem test_enc_negative :
    nextIs (exec .enc (small (bits 32 (-3392487)) (bits 32 (-7066667)) (bits 32 (-430)) 255 0 65535 []))
      (fun t => bytes t ==
        [0x19, 0x3C, 0xCC, 0xFF, 0xD5, 0x2B, 0x94, 0xFF, 0x52, 0xFE, 0xFF, 0x00, 0xFF, 0xFF]) = true := by decide

/-- V-ENC-10: altitude 40000 is cut, not saturated; the old frame does not survive. -/
theorem test_enc_cuts_altitude :
    nextIs (exec .enc (small 0 0 40000 0 0 0 sample.frame))
      (fun t => bytes t == [0, 0, 0, 0, 0, 0, 0, 0, 0x40, 0x9C, 0, 0, 0, 0]) = true := by decide

/-- V-DEC-2. -/
theorem test_dec_signs :
    nextIs (exec .dec { sample with
        frame := frameOf [0x80, 0, 0, 0, 0, 0, 0, 0x80, 0, 0x80, 0x7F, 0x64, 0x34, 0x12] })
      (fun t => record t == (128, -2147483648, -32768, 127, 100, 4660)) = true := by decide

/-- V-DEC-8: byte order of every field. -/
theorem test_dec_byte_order :
    nextIs (exec .dec { sample with frame := frameOf [1, 2, 3, 4, 5, 6, 7, 8, 9, 10, 11, 12, 13, 14] })
      (fun t => record t == (67305985, 134678021, 2569, 11, 12, 3597)) = true := by decide

/-- V-Q-1 and V-Q-13: −150 gives −1, where floor gives −2. -/
theorem test_qlat_toward_zero :
    nextIs (exec (.qlat 0x08988455) sample) (fun t => t.lat == 0x00160152) = true ∧
    nextIs (exec (.qlat 0xFFFFFF6A) sample) (fun t => t.lat == 0xFFFFFFFF && t.lon == sample.lon) = true := by decide

/-- V-Q-2. -/
theorem test_qlon_toward_zero :
    nextIs (exec (.qlon 0xB7084795) sample) (fun t => t.lon == 0xFF4533EB && t.lat == sample.lat) = true := by decide

/-- V-Q-22 and V-Q-25: all 32 bits are kept. -/
theorem test_qalt_full_width :
    nextIs (exec (.qalt 0xFFFFCD39) sample) (fun t => t.alt == 0xFFFFFFF4) = true ∧
    nextIs (exec (.qalt 0x02625DE7) sample) (fun t => t.alt == 40000) = true := by decide

/-- V-Q-30: the operand is unsigned and the quotient is cut to 16 bits. -/
theorem test_qspd_unsigned :
    nextIs (exec (.qspd 0xFFFFFFFF) sample) (fun t => t.spd == 35127) = true := by decide

/-! ## Errors and reset -/

/-- P5 step 4: ENC with `arg` 1 answers IllegalOpcode and changes nothing. -/
theorem test_error_changes_nothing :
    nextIs (step { sample with pending := [⟨false, ⟨0x51, 0⟩⟩] })
      (fun t => t == { sample with resp := .illegalOpcode }) = true := by decide

/-- V-RST-4: reset does not depend on the state before it, and the command beside it is not executed. -/
theorem test_reset_wins :
    nextIs (step { sample with pending := [⟨true, ⟨0x10, 0xFF⟩⟩] })
      (fun t => record t == (0, 0, 0, 0, 0, 0) && t.frame == [] && t.config == vectorConfig) = true := by decide

/-- R31: the byte at address 13 is the top byte of the port. -/
theorem test_frame_port : sample.framePort = 0x1200000080000000000000000080 := by decide

/-! ## The assembler (R68, R69) -/

/-- `WRR SPD, 70000 ; comment`. -/
theorem test_read_wrr :
    readLine (" WRR SPD, 70000 ; comment".toList) = some [.wrr .spd 70000] := by decide

/-- `QLON -1224194155` assembles to `71 B7084795` (program P4, line 2). -/
theorem test_read_qlon :
    (readLine ("QLON -1224194155".toList)).map (List.map assemble) = some [⟨0x71, 0xB7084795⟩] := by decide

/-- `WRB 9, 0x80` is the pair (0x39, 0x00000080) (R131). -/
theorem test_read_wrb :
    (readLine ("WRB 9, 0x80".toList)).map (List.map assemble) = some [⟨0x39, 0x80⟩] := by decide

/-- An address beyond the frame and an empty operand are no lines; a comment alone is no command. -/
theorem test_read_refuses :
    readLine ("RDB 14".toList) = none ∧ readLine ("WRR LAT,".toList) = none ∧
      readLine ("; only a comment".toList) = some [] := by decide

/-- RDREC stands for six lines, in order. -/
theorem test_read_rdrec :
    readLine ("RDREC".toList) = some [.rdr .lat, .rdr .lon, .rdr .alt, .rdr .hdop, .rdr .bat, .rdr .spd] := by decide

/-! ## Witnesses: for each statement with hypotheses, states and operands that meet all of them, at the boundary values of
each clause. The name says which statement. -/

/-- A state with one command presented. -/
def presenting (cw : BitVec 8) (w : Word) : State := { sample with pending := [⟨false, ⟨cw, w⟩⟩] }

theorem witness_OpcodeMap :
    (0 : Nibble).toNat ≤ 5 ∧ (5 : Nibble).toNat ≤ 5 ∧ (0 : Nibble).toNat ≤ 13 ∧ (13 : Nibble).toNat ≤ 13 ∧
    0x80 ≤ (0x80 : BitVec 8).toNat ∧ 0x80 ≤ (0xFF : BitVec 8).toNat := by decide

theorem witness_DecodeOfEncode :
    (Instr.wrr 5 0xFFFFFFFF).wellFormed = true ∧ (Instr.rdr 0).wellFormed = true ∧
    (Instr.wrb 13 0xFF).wellFormed = true ∧ (Instr.rdb 0).wellFormed = true ∧
    (Instr.qspd 0xFFFFFFFF).wellFormed = true := by decide

theorem witness_EncodeOfDecode :
    decode ⟨0x3D, 0x80000001⟩ = .legal (.wrb 13 0x80000001) ∧ decode ⟨0x4D, 0x80000001⟩ = .legal (.rdb 13) := by decide

theorem witness_IllegalOpcodeWords :
    (presenting 0x01 7).pending = ⟨false, ⟨0x01, 7⟩⟩ :: [] ∧
    decode ⟨0x01, 7⟩ = .illegal (.illegalOpcode 0x01) ∧ decode ⟨0x80, 7⟩ = .illegal (.illegalOpcode 0x80) ∧
    decode ⟨0xFF, 7⟩ = .illegal (.illegalOpcode 0xFF) ∧ decode ⟨0x6F, 7⟩ = .illegal (.illegalOpcode 0x6F) := by decide

theorem witness_IllegalRegisterWords :
    (presenting 0x16 7).pending = ⟨false, ⟨0x16, 7⟩⟩ :: [] ∧
    decode ⟨0x16, 7⟩ = .illegal (.illegalRegister 6) ∧ decode ⟨0x2F, 7⟩ = .illegal (.illegalRegister 15) ∧
    decode ⟨0x74, 7⟩ = .illegal (.illegalRegister 4) ∧ decode ⟨0x76, 7⟩ = .illegal (.illegalRegister 6) := by decide

theorem witness_IllegalAddressWords :
    (presenting 0x3E 7).pending = ⟨false, ⟨0x3E, 7⟩⟩ :: [] ∧
    decode ⟨0x3E, 7⟩ = .illegal (.illegalAddress 14) ∧ decode ⟨0x4F, 7⟩ = .illegal (.illegalAddress 15) := by decide

theorem witness_ErrorChangesNothing :
    decode ⟨0x3E, 7⟩ = .illegal (.illegalAddress 14) ∧
    ({ sample with pending := [⟨false, ⟨0x3E, 7⟩⟩, ⟨true, ⟨0, 0⟩⟩] } : State).pending =
      ⟨false, ⟨0x3E, 7⟩⟩ :: ⟨true, ⟨0, 0⟩⟩ :: [] := by decide

theorem witness_ErrorsDependOnTheWordAlone :
    decode ⟨0x1F, 1⟩ = .illegal (.illegalRegister 15) ∧ legalWord 0x75 = true ∧ legalWord 0x76 = false ∧
    (presenting 0x75 1).pending = ⟨false, ⟨0x75, 1⟩⟩ :: [] := by decide

theorem witness_CommandErrorNamesEveryFailure :
    (presenting 0x4F 1).pending = ⟨false, ⟨0x4F, 1⟩⟩ :: [] ∧
    (presenting 0x4F 1).commandError = some (.illegalAddress 15) ∧ (presenting 0x4D 1).commandError = none ∧
    (presenting 0x8E 0).commandError = some (.illegalOpcode 0x8E) := by decide

/-- R143, R146: three words with the same index, 6, that the fault tells apart. -/
theorem test_fault_names_the_command :
    (presenting 0x16 0).commandFault = some (.illegalRegister 0x16 6) ∧
    (presenting 0x26 0).commandFault = some (.illegalRegister 0x26 6) ∧
    (presenting 0x76 0).commandFault = some (.illegalRegister 0x76 6) ∧
    (presenting 0x3E 0).commandFault = some (.illegalAddress 0x3E 14) ∧
    (presenting 0x8E 0).commandFault = some (.illegalOpcode 0x8E) ∧ (presenting 0x75 0).commandFault = none := by decide

theorem witness_IllFormedInstructionsEndInTheirError :
    (Instr.wrr 6 0).wellFormed = false ∧ (Instr.rdr 15).wellFormed = false ∧ (Instr.wrb 14 0).wellFormed = false ∧
    (Instr.rdb 15).wellFormed = false := by decide

theorem witness_RecordedFaultsNameTheIllegalCommands :
    (∀ x ∈ (presenting 0x16 0).pending, x.reset = false) ∧ (presenting 0x16 0).pending.length = 1 ∧
    faults 1 (presenting 0x16 0) = [.illegalRegister 0x16 6] ∧ faults 1 (presenting 0x15 0) = [] := by decide

theorem witness_LegalCommandsAnswerOk :
    (Instr.wrr 0 0).wellFormed = true ∧ (Instr.wrr 5 0).wellFormed = true ∧ (Instr.rdb 13).wellFormed = true := by decide

theorem witness_StepRunsTheDecodedCommand :
    (presenting 0x4D 1).pending = ⟨false, ⟨0x4D, 1⟩⟩ :: [] ∧ decode ⟨0x4D, 1⟩ = .legal (.rdb 13) := by decide

theorem witness_ResetStateIsZero : (0 : Nat) < 14 ∧ 13 < 14 := by decide

theorem witness_ResetEvent :
    ({ sample with pending := [⟨true, ⟨0x50, 0⟩⟩] } : State).pending = ⟨true, ⟨0x50, 0⟩⟩ :: [] := by decide

theorem witness_StepKeepsTheInvariant :
    (presenting 0x3D 0xFF).Inv ∧ nextIs (step (presenting 0x3D 0xFF)) (fun _ => true) = true := by
  unfold State.Inv
  decide

theorem witness_StepKeepsTheParameters : nextIs (step (presenting 0x70 1)) (fun _ => true) = true := by decide

theorem witness_NopDoesNothing :
    (0x01 : BitVec 8).toNat ≤ 0x0F ∧ 0x01 ≤ (0x01 : BitVec 8).toNat ∧ 0x01 ≤ (0x0F : BitVec 8).toNat ∧
    (0x0F : BitVec 8).toNat ≤ 0x0F := by decide

theorem witness_WrrWritesTheRegister :
    (0 : Nibble).toNat ≤ 5 ∧ (5 : Nibble).toNat ≤ 5 ∧ 6 ≤ (6 : Nibble).toNat ∧ 6 ≤ (15 : Nibble).toNat := by decide

theorem witness_RdrReadsTheRegister :
    (0 : Nibble).toNat ≤ 5 ∧ (5 : Nibble).toNat ≤ 5 ∧ 6 ≤ (6 : Nibble).toNat ∧ 6 ≤ (15 : Nibble).toNat := by decide

theorem witness_WrbStoresOneByte :
    (0 : Nibble).toNat ≤ 13 ∧ (13 : Nibble).toNat ≤ 13 ∧ 14 ≤ (14 : Nibble).toNat ∧ 14 ≤ (15 : Nibble).toNat ∧
    (12 : Nat) ≠ (13 : Nibble).toNat := by decide

theorem witness_RdbReadsOneByte :
    (0 : Nibble).toNat ≤ 13 ∧ (13 : Nibble).toNat ≤ 13 ∧ 14 ≤ (14 : Nibble).toNat ∧ 14 ≤ (15 : Nibble).toNat := by decide

theorem witness_EncWritesTheFrame :
    0x51 ≤ (0x51 : BitVec 8).toNat ∧ (0x5F : BitVec 8).toNat ≤ 0x5F ∧ (14 : Nat) ≤ 14 := by decide

theorem witness_DecWritesTheRecord :
    0x61 ≤ (0x61 : BitVec 8).toNat ∧ (0x6F : BitVec 8).toNat ≤ 0x6F ∧ (16 : Nat) ≤ 16 ∧ 31 < 32 := by decide

theorem witness_OnlyWritersChangeARegister :
    Instr.enc.writesReg .lat = false ∧ (Instr.wrr 5 1).writesReg .bat = false ∧ (Instr.qlat 1).writesReg .lon = false ∧
    (Instr.wrr 15 1).writesReg .spd = false := by decide

theorem witness_OnlyWritersChangeAFrameByte :
    (Instr.wrb 13 1).writesByte 12 = false ∧ Instr.enc.writesByte 14 = false ∧
    (∀ k, k < 14 → Instr.dec.writesByte k = false) := by decide

theorem witness_OnlyReadRegistersMatter :
    (Instr.rdr 5).readsReg .bat = false ∧ Instr.dec.readsReg .lat = false ∧
    nextIs (exec (.rdr 5) sample) (fun _ => true) = true ∧ nextIs (exec .dec sample) (fun _ => true) = true := by decide

theorem witness_OnlyReadFrameBytesMatter :
    13 < 14 ∧ (Instr.rdb 12).readsByte 13 = false ∧ Instr.enc.readsByte 0 = false ∧
    nextIs (exec (.rdb 12) sample) (fun _ => true) = true ∧ nextIs (exec .enc sample) (fun _ => true) = true := by decide

theorem witness_ParametersMatterToQuantisersAlone :
    (∀ w, Instr.enc ≠ .qlat w ∧ Instr.enc ≠ .qlon w ∧ Instr.enc ≠ .qalt w ∧ Instr.enc ≠ .qspd w) ∧
    nextIs (exec .enc sample) (fun _ => true) = true := by
  refine ⟨fun w => ?_, by decide⟩
  simp

theorem witness_IgnoredOperandBitsDoNotMatter :
    (0x34 : Word).extractLsb' 0 8 = (0xFFFFFF34 : Word).extractLsb' 0 8 ∧
    (0x1170 : Word).extractLsb' 0 16 = (0xABCD1170 : Word).extractLsb' 0 16 ∧
    0x13 ≤ (0x13 : BitVec 8).toNat ∧ (0x3D : BitVec 8).toNat ≤ 0x3D ∧ (0x15 : BitVec 8).toNat = 0x15 := by decide

theorem witness_DecThenEncFrame : sample.Inv := by
  unfold State.Inv
  decide

theorem witness_EncodingIsOnto : (0 : Nat) < 14 ∧ 13 < 14 := by decide

theorem witness_FramePortShowsTheFrame : 13 < 14 ∧ 0 < (presenting 0x39 0x80).pending.length := by decide

theorem witness_SignByteDecidesTheAltitude : (0x80 : Word).getLsbD 7 = true := by decide

theorem witness_DivisionRoundsTowardZero : 1 ≤ 1 ∧ 1 ≤ maxDivisor ∧ (0 : Int) ≤ 0 ∧ (-1 : Int) < 0 := by decide

theorem witness_DivisionIdentities : 1 ≤ 1 ∧ 1 ≤ maxDivisor := by decide

theorem witness_QuantisationErrorBelowOneUnit :
    0 ≤ (0x7FFFFFFF : Word).toInt ∧ 0 ≤ (0 : Word).toInt ∧ (0x80000000 : Word).toInt < 0 ∧ (0xFFFFFFFF : Word).toInt < 0 :=
  by decide

theorem witness_LegalRunsAnswerOk : ∀ x ∈ (presenting 0x75 1).pending, LegalInput x := by
  intro x hx
  obtain rfl := List.mem_singleton.mp hx
  exact ⟨rfl, by decide⟩

theorem witness_UnwrittenStatePersists_register : ∀ x ∈ (presenting 0x14 86).pending, KeepsReg .lat x := by
  intro x hx
  obtain rfl := List.mem_singleton.mp hx
  refine ⟨rfl, fun i hi => ?_⟩
  obtain rfl := Decoded.legal.inj ((show decode ⟨0x14, 86⟩ = .legal (.wrr 4 86) by decide).symm.trans hi)
  decide

theorem witness_UnwrittenStatePersists_byte : ∀ x ∈ (presenting 0x39 0x80).pending, KeepsByte 8 x := by
  intro x hx
  obtain rfl := List.mem_singleton.mp hx
  refine ⟨rfl, fun i hi => ?_⟩
  obtain rfl := Decoded.legal.inj ((show decode ⟨0x39, 0x80⟩ = .legal (.wrb 9 0x80) by decide).symm.trans hi)
  decide

theorem witness_RegisterReadReturnsLatestWrite : ∀ c ∈ [(⟨0x50, 0⟩ : Command)], KeepsReg .spd ⟨false, c⟩ := by
  intro c hc
  obtain rfl := List.mem_singleton.mp hc
  refine ⟨rfl, fun i hi => ?_⟩
  obtain rfl := Decoded.legal.inj ((show decode ⟨0x50, 0⟩ = .legal .enc by decide).symm.trans hi)
  decide

theorem witness_FrameReadReturnsLatestWrite :
    (13 : Nibble).toNat ≤ 13 ∧ ∀ c ∈ [(⟨0x60, 0⟩ : Command)], KeepsByte (13 : Nibble).toNat ⟨false, c⟩ := by
  refine ⟨by decide, fun c hc => ?_⟩
  obtain rfl := List.mem_singleton.mp hc
  refine ⟨rfl, fun i hi => ?_⟩
  obtain rfl := Decoded.legal.inj ((show decode ⟨0x60, 0⟩ = .legal .dec by decide).symm.trans hi)
  decide

end Sys2Proof.Tests
end

