-- ==== Sys2Proof/Proofs/Persistence.lean ====
section
/-! Persistence (spec 10_state.md R33): what no command of a run writes, and no reset clears, stays. -/

namespace Sys2Proof.Machine

/-! A frame byte under each update of the state. -/

@[simp] theorem State.frameByte_answer (s : State) (d : Word) (b : Nat) :
    (s.answer d).frameByte b = s.frameByte b := rfl

@[simp] theorem State.frameByte_raise (s : State) (e : CommandError) (b : Nat) :
    (s.raise e).frameByte b = s.frameByte b := rfl

@[simp] theorem State.frameByte_afterFetch (s : State) (b : Nat) :
    s.afterFetch.frameByte b = s.frameByte b := rfl

@[simp] theorem State.frameByte_decodedRecord (s : State) (b : Nat) :
    (decodedRecord s).frameByte b = s.frameByte b := rfl

@[simp] theorem State.frameByte_setReg (s : State) (r : Reg) (v : BitVec (regWidth r)) (b : Nat) :
    (s.setReg r v).frameByte b = s.frameByte b := congrArg (Memory.read · b) (s.setReg_keeps_frame r v)

theorem State.frameByte_setFrameByte_ne (s : State) {a b : Nat} (h : b ≠ a) (v : Byte) :
    (s.setFrameByte a v).frameByte b = s.frameByte b := by
  simp [State.frameByte, h]

/-- ENC stores nothing beyond the fourteen bytes (R85). -/
theorem read_encodedFrame_of_ge (s : State) {b : Nat} (h : frameBytes ≤ b) :
    (encodedFrame s).read b = s.frameByte b := by
  have h14 : 14 ≤ b := h
  rw [read_encodedFrame, if_neg (by omega), if_neg (by omega), if_neg (by omega), if_neg (by omega),
    if_neg (by omega), if_neg (by omega)]
  rfl

/-! One command. -/

/-- A command changes no register that R23 does not give it. -/
theorem exec_keeps_reg {i : Instr} {s t : State} {q : Reg} (hq : i.writesReg q = false) (h : exec i s = .next t) :
    t.reg q = s.reg q := by
  obtain ⟨d, e, -⟩ | ⟨r, v, e, hr⟩ | ⟨k, v, -, e, -⟩ | ⟨-, e⟩ | ⟨rfl, e⟩ | ⟨x, e, -⟩ := exec_cases i s
  all_goals
    rw [e] at h
    cases h
  · simp
  · have hne : q ≠ r := by
      rintro rfl
      rw [hr] at hq
      cases hq
    rw [State.reg_answer, State.reg_setReg_ne s hne]
  · simp
  · cases q <;> rfl
  · cases hq -- DEC writes every register
  · simp

/-- A command changes no frame byte that R45 does not give it. -/
theorem exec_keeps_frameByte {i : Instr} {s t : State} {b : Nat} (hb : i.writesByte b = false)
    (h : exec i s = .next t) : t.frameByte b = s.frameByte b := by
  obtain ⟨d, e, -⟩ | ⟨r, v, e, -⟩ | ⟨k, v, -, e, hk⟩ | ⟨rfl, e⟩ | ⟨-, e⟩ | ⟨x, e, -⟩ := exec_cases i s
  all_goals
    rw [e] at h
    cases h
  · simp
  · simp
  · have hne : b ≠ k := by
      rintro rfl
      rw [hk] at hb
      cases hb
    rw [State.frameByte_answer, State.frameByte_setFrameByte_ne s hne]
  · exact read_encodedFrame_of_ge s (Nat.le_of_not_lt (of_decide_eq_false hb))
  · simp
  · simp

/-! One step, and a run: said once for whatever is read off the state. -/

section Persistence

variable {α : Type} {f : State → α} {writes : Instr → Bool}

/-- A step without a reset keeps what its command does not write: the fetch and an error keep it (R141), and a command
keeps it unless it writes it. -/
theorem step_keeps (fetch : ∀ s : State, f s.afterFetch = f s) (raise : ∀ (s : State) e, f (s.raise e) = f s)
    (command : ∀ i s t, writes i = false → exec i s = .next t → f t = f s)
    {s t : State} {x : PortInput} {rest : List PortInput} (hp : s.pending = x :: rest) (hx : x.reset = false)
    (hw : ∀ i, decode x.command = .legal i → writes i = false) (h : step s = .next t) : f t = f s := by
  cases hd : decode x.command with
  | legal i =>
    rw [step_of_legal hp hx hd] at h
    rw [command i _ t (hw i hd) h, fetch]
  | illegal e =>
    rw [step_of_illegal hp hx hd] at h
    cases h
    rw [raise, fetch]

/-- A run without a reset keeps what none of its commands writes. -/
theorem stateAfter_keeps (fetch : ∀ s : State, f s.afterFetch = f s) (raise : ∀ (s : State) e, f (s.raise e) = f s)
    (command : ∀ i s t, writes i = false → exec i s = .next t → f t = f s) (s : State)
    (h : ∀ x ∈ s.pending, x.reset = false ∧ ∀ i, decode x.command = .legal i → writes i = false) (k : Nat) :
    f (stateAfter k s) = f s :=
  stateAfter_induction (P := fun s u => f u = f s) (fun _ => rfl)
    (fun _ _ _ _ _ hp ⟨hx, hw⟩ hstep ih => ih.trans (step_keeps fetch raise command hp hx hw hstep)) k s h

end Persistence

/-- A register that no presented input clears or writes keeps its value along the run. -/
theorem stateAfter_keeps_reg (r : Reg) (s : State) (h : ∀ x ∈ s.pending, KeepsReg r x) (k : Nat) :
    (stateAfter k s).reg r = s.reg r :=
  stateAfter_keeps (f := (State.reg · r)) (writes := (Instr.writesReg · r)) (fun s => s.reg_afterFetch r)
    (fun s e => s.reg_raise e r) (fun _ _ _ => exec_keeps_reg) s h k

/-- A frame byte that no presented input clears or writes keeps its value along the run. -/
theorem stateAfter_keeps_frameByte (b : Nat) (s : State) (h : ∀ x ∈ s.pending, KeepsByte b x) (k : Nat) :
    (stateAfter k s).frameByte b = s.frameByte b :=
  stateAfter_keeps (f := (State.frameByte · b)) (writes := (Instr.writesByte · b)) (fun s => s.frameByte_afterFetch b)
    (fun s e => s.frameByte_raise e b) (fun _ _ _ => exec_keeps_frameByte) s h k

/-- Settles O48, by the induction along a run: every step without a reset keeps what its command does not write. -/
theorem unwrittenStatePersists : Obligations.UnwrittenStatePersists :=
  ⟨stateAfter_keeps_reg, stateAfter_keeps_frameByte⟩

end Sys2Proof.Machine
end

/-! The opcode map and the response code (spec 30_encoding.md R63, R66): which words the decoder accepts, by the two fields
of the word, and that no command of the map fails. -/

namespace Sys2Proof

/-- A decoder that tests one condition accepts where the condition holds. -/
theorem exists_ite_legal {p : Prop} [Decidable p] {i : Instr} {e : CommandError} :
    (∃ j, (if p then Decoded.legal i else .illegal e) = .legal j) ↔ p := by
  split <;> simp [*]

/-! The legal `arg` of each kind of command. -/

theorem exists_decodePlain_legal {c : Command} {i : Instr} :
    (∃ j, decodePlain c i = .legal j) ↔ argField c.cw = 0 :=
  exists_ite_legal

theorem exists_decodeIndexed_legal {c : Command} {i : Instr} :
    (∃ j, decodeIndexed c i = .legal j) ↔ legalIndex (argField c.cw) = true :=
  exists_ite_legal

theorem exists_decodeAddressed_legal {c : Command} {i : Instr} :
    (∃ j, decodeAddressed c i = .legal j) ↔ legalAddress (argField c.cw) = true :=
  exists_ite_legal

theorem exists_decodeQuantise_legal {c : Command} :
    (∃ j, decodeQuantise c = .legal j) ↔
      argField c.cw = 0 ∨ argField c.cw = 1 ∨ argField c.cw = 2 ∨ argField c.cw = 5 := by
  unfold decodeQuantise
  split_ifs <;> simp_all

/-- The ranges of R63 read off the two fields: `op` selects the commands, `arg` is checked against their legal set. -/
theorem legalWord_iff_fields (cw : BitVec 8) :
    legalWord cw = true ↔
      ((opField cw).toNat = 0 ∨ (opField cw).toNat = 5 ∨ (opField cw).toNat = 6) ∧ argField cw = 0 ∨
      ((opField cw).toNat = 1 ∨ (opField cw).toNat = 2) ∧ legalIndex (argField cw) = true ∨
      ((opField cw).toNat = 3 ∨ (opField cw).toNat = 4) ∧ legalAddress (argField cw) = true ∨
      (opField cw).toNat = 7 ∧
        (argField cw = 0 ∨ argField cw = 1 ∨ argField cw = 2 ∨ argField cw = 5) := by
  revert cw
  decide

/-- The decoder accepts exactly the words R63 lists, whatever the operand word is. -/
theorem exists_decode_legal_iff (c : Command) : (∃ i, decode c = .legal i) ↔ legalWord c.cw = true := by
  rw [legalWord_iff_fields]
  unfold decode
  split
  case h_1 op | h_6 op | h_7 op => simp [op, exists_decodePlain_legal]
  case h_2 op | h_3 op => simp [op, exists_decodeIndexed_legal]
  case h_4 op | h_5 op => simp [op, exists_decodeAddressed_legal]
  case h_8 op => simp [op, exists_decodeQuantise_legal]
  case h_9 =>
    refine iff_of_false nofun ?_
    rintro (⟨op | op | op, -⟩ | ⟨op | op, -⟩ | ⟨op | op, -⟩ | ⟨op, -⟩) <;> contradiction

/-- `op = cw[7:4]` as a number (R61). -/
theorem opField_toNat (cw : BitVec 8) : (opField cw).toNat = cw.toNat / 16 := by
  revert cw
  decide

/-- `op` 0x8 to 0xF selects no command, whatever `arg` is (R149). -/
theorem decode_reserved {c : Command} (h : 8 ≤ (opField c.cw).toNat) :
    decode c = .illegal (.illegalOpcode c.cw) := by
  unfold decode
  split
  case h_9 => rfl
  all_goals omega

/-! The rows of R63: the field `arg` is written out where it can vary. -/

theorem decode_nop (w : Word) : decode ⟨0x00, w⟩ = .legal .nop := by
  simp [decode, decodePlain, opField, argField]

theorem decode_wrr {r : Nibble} (h : legalIndex r = true) (w : Word) :
    decode ⟨0x1#4 ++ r, w⟩ = .legal (.wrr r w) := by
  simp [decode, decodeIndexed, h]

theorem decode_rdr {r : Nibble} (h : legalIndex r = true) (w : Word) :
    decode ⟨0x2#4 ++ r, w⟩ = .legal (.rdr r) := by
  simp [decode, decodeIndexed, h]

theorem decode_wrb {a : Nibble} (h : legalAddress a = true) (w : Word) :
    decode ⟨0x3#4 ++ a, w⟩ = .legal (.wrb a w) := by
  simp [decode, decodeAddressed, h]

theorem decode_rdb {a : Nibble} (h : legalAddress a = true) (w : Word) :
    decode ⟨0x4#4 ++ a, w⟩ = .legal (.rdb a) := by
  simp [decode, decodeAddressed, h]

theorem decode_enc (w : Word) : decode ⟨0x50, w⟩ = .legal .enc := by
  simp [decode, decodePlain, opField, argField]

theorem decode_dec (w : Word) : decode ⟨0x60, w⟩ = .legal .dec := by
  simp [decode, decodePlain, opField, argField]

theorem decode_qlat (w : Word) : decode ⟨0x70, w⟩ = .legal (.qlat w) := by
  simp [decode, decodeQuantise, opField, argField]

theorem decode_qlon (w : Word) : decode ⟨0x71, w⟩ = .legal (.qlon w) := by
  simp [decode, decodeQuantise, opField, argField]

theorem decode_qalt (w : Word) : decode ⟨0x72, w⟩ = .legal (.qalt w) := by
  simp [decode, decodeQuantise, opField, argField]

theorem decode_qspd (w : Word) : decode ⟨0x75, w⟩ = .legal (.qspd w) := by
  simp [decode, decodeQuantise, opField, argField]

/-- A legal index is one of the six that name a register. -/
theorem legalIndex_eq_true {r : Nibble} : legalIndex r = true ↔ r.toNat < 6 :=
  decide_eq_true_iff

/-- The ranges of R63 hold 47 words. -/
theorem legalWord_count : ((List.range 256).filter (fun n => legalWord (BitVec.ofNat 8 n))).length = 47 := by
  decide

/-- Settles O2: each row by the equation of its kind, the reserved rows and the legal words by the two fields. -/
theorem opcodeMap : Obligations.OpcodeMap := by
  have index {r : Nibble} (h : r.toNat ≤ 5) : legalIndex r = true := legalIndex_eq_true.mpr (Nat.lt_succ_of_le h)
  have address {a : Nibble} (h : a.toNat ≤ 13) : legalAddress a = true :=
    Machine.legalAddress_eq_true.mpr (Nat.lt_succ_of_le h)
  refine ⟨decode_nop, fun _ w h => decode_wrr (index h) w, fun _ w h => decode_rdr (index h) w,
    fun _ w h => decode_wrb (address h) w, fun _ w h => decode_rdb (address h) w, decode_enc, decode_dec,
    decode_qlat, decode_qlon, decode_qalt, decode_qspd, fun c h => ?_, exists_decode_legal_iff, legalWord_count⟩
  apply decode_reserved
  rw [opField_toNat]
  omega

end Sys2Proof

namespace Sys2Proof.Machine

/-- A command whose index or address is legal answers OK: only an illegal one can raise (R66). -/
theorem exec_answers_ok {i : Instr} (hi : i.wellFormed = true) (s : State) :
    ∃ t, exec i s = .next t ∧ t.resp = .ok := by
  obtain ⟨d, e, -⟩ | ⟨r, v, e, -⟩ | ⟨k, v, -, e, -⟩ | ⟨-, e⟩ | ⟨-, e⟩ | ⟨x, -, hx⟩ := exec_cases i s
  on_goal 6 => cases hi.symm.trans hx -- an error needs an illegal index or address
  all_goals exact ⟨_, e, State.answer_resp _ _⟩

/-- Settles O11: the codes by definition, the answer from everything one command can do. -/
theorem legalCommandsAnswerOk : Obligations.LegalCommandsAnswerOk :=
  ⟨⟨rfl, rfl, rfl, rfl⟩, fun _ s hi => exec_answers_ok hi s⟩

end Sys2Proof.Machine

/-! ENC and DEC (spec 40_codec_enc_dec.md R85, R88): the words around 0x50 and 0x60, and what each command leaves. -/

namespace Sys2Proof

/-- `arg = cw[3:0]` as a number (R61). -/
theorem argField_toNat (cw : BitVec 8) : (argField cw).toNat = cw.toNat % 16 := by
  revert cw
  decide

/-- A command whose `arg` must be 0 is IllegalOpcode with any other (R142). -/
theorem decodePlain_of_argField_ne_zero {c : Command} (h : argField c.cw ≠ 0) (i : Instr) :
    decodePlain c i = .illegal (.illegalOpcode c.cw) :=
  if_neg h

/-- `op` 0x0, 0x5 and 0x6 (NOP, ENC, DEC) take no `arg` but 0: the fifteen words above each are IllegalOpcode (R142). -/
theorem decode_illegal_of_plain_op {c : Command} (hop : c.cw.toNat / 16 = 0 ∨ c.cw.toNat / 16 = 5 ∨ c.cw.toNat / 16 = 6)
    (harg : c.cw.toNat % 16 ≠ 0) : decode c = .illegal (.illegalOpcode c.cw) := by
  have hne : argField c.cw ≠ 0 := by
    intro h
    rw [← argField_toNat, h] at harg
    exact harg rfl
  rw [← opField_toNat] at hop
  unfold decode
  rcases hop with op | op | op <;> rw [op] <;> exact decodePlain_of_argField_ne_zero hne _

end Sys2Proof

namespace Sys2Proof.Machine

/-- Settles O23: the words by their two fields, the bytes by what ENC leaves at each address. -/
theorem encWritesTheFrame : Obligations.EncWritesTheFrame := by
  refine ⟨decode_enc, fun c hlo hhi => decode_illegal_of_plain_op (by omega) (by omega), fun s => ?_⟩
  have byte := read_encodedFrame s
  exact ⟨State.answer { s with frame := encodedFrame s } 0, rfl,
    byte 0, byte 1, byte 2, byte 3, byte 4, byte 5, byte 6, byte 7, byte 8, byte 9, byte 10, byte 11, byte 12, byte 13,
    fun _ => read_encodedFrame_of_ge s, ⟨rfl, rfl, rfl, rfl, rfl, rfl⟩, exec_keeps_surroundings (i := .enc) rfl,
    State.answer_resp _ _, State.answer_rdata _ _⟩

/-- Above the half it extends, a sign extension repeats bit 7 of the high byte (R8). -/
theorem getLsbD_sext_append_of_ge (hi lo : Byte) {i : Nat} (h16 : 16 ≤ i) (h32 : i < 32) :
    (sext 32 (hi ++ lo : Half)).getLsbD i = hi.getLsbD 7 := by
  have hmsb : (hi ++ lo).msb = hi.msb := BitVec.msb_append
  rw [BitVec.getLsbD_signExtend, if_neg (Nat.not_lt.mpr h16), hmsb, BitVec.msb_eq_getLsbD_last]
  simp [h32]

/-- The altitude DEC leaves: the second byte is the high one, and it carries the sign (R88). -/
theorem decodedRecord_alt_bytes (s : State) : (decodedRecord s).alt = sext 32 (s.frameByte 9 ++ s.frameByte 8 : Half) :=
  congrArg (sext 32) (Memory.readLE_two s.frame 8)

/-- Settles O24: the words by their two fields, each register by its little-endian read, altitude by its sign extension. -/
theorem decWritesTheRecord : Obligations.DecWritesTheRecord := by
  refine ⟨decode_dec, fun c hlo hhi => decode_illegal_of_plain_op (by omega) (by omega), fun s => ?_⟩
  have lowHalf : (decodedRecord s).alt.extractLsb' 0 16 = s.frameByte 9 ++ s.frameByte 8 := by
    rw [decodedRecord_alt_bytes, extractLsb'_sext]
  have sign : ∀ i, 16 ≤ i → i < 32 → (decodedRecord s).alt.getLsbD i = (s.frameByte 9).getLsbD 7 := by
    intro i h16 h32
    rw [decodedRecord_alt_bytes, getLsbD_sext_append_of_ge _ _ h16 h32]
  exact ⟨(decodedRecord s).answer 0, rfl, Memory.readLE_four s.frame 0, Memory.readLE_four s.frame 4, lowHalf, sign,
    Memory.readLE_one s.frame 10, Memory.readLE_one s.frame 11, Memory.readLE_two s.frame 12, rfl,
    exec_keeps_surroundings (i := .dec) rfl, State.answer_resp _ _, State.answer_rdata _ _⟩

end Sys2Proof.Machine

/-! QLAT, QLON, QALT and QSPD (spec 41_quantize.md R101 to R104): the value written is the quotient, named by its remainder. -/

namespace Sys2Proof.Machine

/-- The word a signed quantiser writes reads as the quotient itself: `bits_32` does not wrap (R101 corner case (a)). -/
theorem quantiseSigned_truncated (d : Divisor) (w : Word) :
    TruncatedQuotient w.toInt d.val (quantiseSigned d w).toInt := by
  rw [toInt_quantiseSigned]
  exact tdiv_truncated w.toInt d.pos

/-- QSPD writes the low half of the natural-number quotient, and nothing else of the state but the response (R104). -/
theorem exec_qspd (w : Word) (s : State) :
    exec (.qspd w) s =
      .next { s with spd := BitVec.ofNat 16 (w.toNat / s.config.spdDiv.val % 65536), resp := .ok, rdata := 0 } := by
  rw [← quantiseUnsigned_eq]
  rfl

/-- Settles O25: the next state by definition, its LAT by the quotient that never wraps. -/
theorem qlatWritesTheQuotient : Obligations.QlatWritesTheQuotient :=
  ⟨decode_qlat, fun w s => ⟨_, rfl, quantiseSigned_truncated s.config.degDiv w⟩⟩

/-- Settles O26: as QLAT, with the same divisor and LON as the register. -/
theorem qlonWritesTheQuotient : Obligations.QlonWritesTheQuotient :=
  ⟨decode_qlon, fun w s => ⟨_, rfl, quantiseSigned_truncated s.config.degDiv w⟩⟩

/-- Settles O27: as QLAT, with the altitude divisor and ALT as the register. -/
theorem qaltWritesTheQuotient : Obligations.QaltWritesTheQuotient :=
  ⟨decode_qalt, fun w s => ⟨_, rfl, quantiseSigned_truncated s.config.altDiv w⟩⟩

/-- Settles O28: quotient and remainder of the unsigned operand by the natural-number division. -/
theorem qspdWritesTheQuotient : Obligations.QspdWritesTheQuotient :=
  ⟨decode_qspd, fun w s =>
    ⟨w.toNat / s.config.spdDiv.val, w.toNat % s.config.spdDiv.val, (Nat.div_add_mod' _ _).symm,
      Nat.mod_lt _ s.config.spdDiv.pos, exec_qspd w s⟩⟩

end Sys2Proof.Machine

/-! WRR, RDR and the commands whose index or address names nothing (spec 42_record_access.md R121, R122;
60_exceptions.md R143, R144). -/

namespace Sys2Proof

/-! The words of R63 whose `arg` names no register, or no frame byte. -/

theorem decode_wrr_illegal {r : Nibble} (h : legalIndex r = false) (w : Word) :
    decode ⟨0x1#4 ++ r, w⟩ = .illegal (.illegalRegister r) := by
  simp [decode, decodeIndexed, h]

theorem decode_rdr_illegal {r : Nibble} (h : legalIndex r = false) (w : Word) :
    decode ⟨0x2#4 ++ r, w⟩ = .illegal (.illegalRegister r) := by
  simp [decode, decodeIndexed, h]

theorem decode_wrb_illegal {a : Nibble} (h : legalAddress a = false) (w : Word) :
    decode ⟨0x3#4 ++ a, w⟩ = .illegal (.illegalAddress a) := by
  simp [decode, decodeAddressed, h]

theorem decode_rdb_illegal {a : Nibble} (h : legalAddress a = false) (w : Word) :
    decode ⟨0x4#4 ++ a, w⟩ = .illegal (.illegalAddress a) := by
  simp [decode, decodeAddressed, h]

/-- An index from 0 to 5 names a register (R22). -/
theorem legalIndex_of_le {r : Nibble} (h : r.toNat ≤ 5) : legalIndex r = true :=
  legalIndex_eq_true.mpr (Nat.lt_succ_of_le h)

/-- An index from 6 to 15 names none (R22). -/
theorem legalIndex_of_ge {r : Nibble} (h : 6 ≤ r.toNat) : legalIndex r = false :=
  decide_eq_false (Nat.not_lt.mpr h)

end Sys2Proof

namespace Sys2Proof.Machine

/-- Settles O54: only WRR, RDR, WRB and RDB can be ill formed, and each of them raises the error of its decoder. -/
theorem illFormedInstructionsEndInTheirError : Obligations.IllFormedInstructionsEndInTheirError := by
  intro i s h
  cases i with
  | wrr r w => exact ⟨_, execWrr_illegal h w s, decode_wrr_illegal h w⟩
  | rdr r => exact ⟨_, execRdr_illegal h s, decode_rdr_illegal h 0⟩
  | wrb a w => exact ⟨_, execWrb_illegal h w s, decode_wrb_illegal h w⟩
  | rdb a => exact ⟨_, execRdb_illegal h s, decode_rdb_illegal h 0⟩
  | nop | enc | dec | qlat | qlon | qalt | qspd => cases h -- always well formed

/-- Settles O19: the words by their row, each register by the one equation of WRR, its operand as the bits kept. -/
theorem wrrWritesTheRegister : Obligations.WrrWritesTheRegister := by
  refine ⟨fun _ w h => decode_wrr (legalIndex_of_le h) w, fun w s => ?_⟩
  have low8 : trunc 8 w = w.extractLsb' 0 8 := BitVec.setWidth_eq_extractLsb' (by decide)
  have low16 : trunc 16 w = w.extractLsb' 0 16 := BitVec.setWidth_eq_extractLsb' (by decide)
  rw [← low8, ← low16]
  -- `trunc 32` of the full-width operand computes to the operand
  exact ⟨execWrr_regIndex .lat w s, execWrr_regIndex .lon w s, execWrr_regIndex .alt w s,
    execWrr_regIndex .hdop w s, execWrr_regIndex .bat w s, execWrr_regIndex .spd w s,
    fun _ h => execWrr_illegal (legalIndex_of_ge h) w s⟩

/-- Settles O20: the words by their row, each register by the one equation of RDR, its result with the zeros above it. -/
theorem rdrReadsTheRegister : Obligations.RdrReadsTheRegister := by
  refine ⟨fun _ w h => decode_rdr (legalIndex_of_le h) w, fun s => ?_⟩
  have zext8 (v : Byte) : 0#24 ++ v = zext 32 v := (BitVec.setWidth_eq_append (by decide)).symm
  have zext16 (v : Half) : 0#16 ++ v = zext 32 v := (BitVec.setWidth_eq_append (by decide)).symm
  rw [zext8, zext8, zext16]
  -- `zext 32` of a full-width register computes to the register
  exact ⟨execRdr_regIndex .lat s, execRdr_regIndex .lon s, execRdr_regIndex .alt s,
    execRdr_regIndex .hdop s, execRdr_regIndex .bat s, execRdr_regIndex .spd s,
    fun _ h => execRdr_illegal (legalIndex_of_ge h) s⟩

end Sys2Proof.Machine

/-! NOP, WRB and RDB (spec 43_frame_access_nop.md R131 to R133). -/

namespace Sys2Proof

/-- An address from 0 to 13 names a frame byte (R40). -/
theorem legalAddress_of_le {a : Nibble} (h : a.toNat ≤ 13) : legalAddress a = true :=
  Machine.legalAddress_eq_true.mpr (Nat.lt_succ_of_le h)

/-- Addresses 14 and 15 hold nothing (R40). -/
theorem legalAddress_of_ge {a : Nibble} (h : 14 ≤ a.toNat) : legalAddress a = false :=
  decide_eq_false (Nat.not_lt.mpr h)

end Sys2Proof

namespace Sys2Proof.Machine

theorem State.frameByte_setFrameByte_self (s : State) (a : Nat) (v : Byte) : (s.setFrameByte a v).frameByte a = v := by
  simp [State.frameByte]

/-- Settles O21: the words by their row, the byte stored by what the write leaves there, the rest by WRB's frame. -/
theorem wrbStoresOneByte : Obligations.WrbStoresOneByte := by
  refine ⟨fun _ w h => decode_wrb (legalAddress_of_le h) w, fun a w s h => ?_,
    fun _ w s h => execWrb_illegal (legalAddress_of_ge h) w s⟩
  have run : exec (.wrb a w) s = .next ((s.setFrameByte a.toNat (byteOperand w)).answer 0) :=
    execWrb_legal (Nat.lt_succ_of_le h) w s
  have stored : ((s.setFrameByte a.toNat (byteOperand w)).answer 0).frameByte a.toNat = w.extractLsb' 0 8 := by
    rw [State.frameByte_answer, State.frameByte_setFrameByte_self]
    exact BitVec.setWidth_eq_extractLsb' (by decide)
  exact ⟨_, run, stored, fun _ hb => exec_keeps_frameByte (i := .wrb a w) (decide_eq_false hb.symm) run,
    ⟨rfl, rfl, rfl, rfl, rfl, rfl⟩, exec_keeps_surroundings run, State.answer_resp _ _, State.answer_rdata _ _⟩

/-- Settles O22: the words by their row, the result by the one equation of RDB, its byte with the zeros above it. -/
theorem rdbReadsOneByte : Obligations.RdbReadsOneByte := by
  refine ⟨fun _ w h => decode_rdb (legalAddress_of_le h) w, fun a s h => ?_,
    fun _ s h => execRdb_illegal (legalAddress_of_ge h) s⟩
  have zeros : 0#24 ++ s.frameByte a.toNat = zext 32 (s.frameByte a.toNat) :=
    (BitVec.setWidth_eq_append (by decide)).symm
  rw [zeros]
  exact execRdb_legal (Nat.lt_succ_of_le h) s

/-- Settles O18: the words by their two fields; NOP's answer is the response pair alone. -/
theorem nopDoesNothing : Obligations.NopDoesNothing :=
  ⟨decode_nop, fun _ hlo hhi => decode_illegal_of_plain_op (by omega) (by omega), fun _ => rfl⟩

end Sys2Proof.Machine

/-! The errors (spec 60_exceptions.md R141 to R145): which words are which error, by the two fields of the word, and that an
erroneous command changes nothing. -/

namespace Sys2Proof

/-! The words of each error by `op = cw[7:4]` and `arg = cw[3:0]`, as R142 to R144 name them; `decode_eq_illegal_iff` says
that the decoder has the same. -/

/-- IllegalOpcode: `op` selects no command, or one that takes no `arg` but 0 (R142). -/
def IllegalOpcodeFields (op arg : Nat) : Prop := 8 ≤ op ∨ (op = 0 ∨ op = 5 ∨ op = 6) ∧ arg ≠ 0

/-- IllegalRegister: WRR or RDR of an index that names no register, or a quantiser of one it does not write (R143). -/
def IllegalRegisterFields (op arg : Nat) : Prop :=
  (op = 1 ∨ op = 2) ∧ 6 ≤ arg ∨ op = 7 ∧ (arg = 3 ∨ arg = 4 ∨ 6 ≤ arg)

/-- IllegalAddress: WRB or RDB of an address that holds nothing (R144). -/
def IllegalAddressFields (op arg : Nat) : Prop := (op = 3 ∨ op = 4) ∧ (arg = 14 ∨ arg = 15)

/-- A decoder that tests one condition errs where the condition fails. -/
theorem ite_eq_illegal_iff {p : Prop} [Decidable p] {i : Instr} {e e' : CommandError} :
    (if p then Decoded.legal i else .illegal e) = .illegal e' ↔ ¬ p ∧ e' = e := by
  split <;> simp [*, eq_comm]

/-- A decoder that tests one condition decodes where the condition holds. -/
theorem ite_eq_legal_iff {p : Prop} [Decidable p] {i j : Instr} {e : CommandError} :
    (if p then Decoded.legal i else .illegal e) = .legal j ↔ p ∧ i = j := by
  split <;> simp [*]

/-! The illegal `arg` of each kind of command. -/

theorem argField_eq_iff {cw : BitVec 8} {a : Nibble} : argField cw = a ↔ cw.toNat % 16 = a.toNat := by
  rw [← BitVec.toNat_inj, argField_toNat]

theorem decodePlain_eq_illegal_iff {c : Command} {i : Instr} {e : CommandError} :
    decodePlain c i = .illegal e ↔ c.cw.toNat % 16 ≠ 0 ∧ e = .illegalOpcode c.cw := by
  rw [decodePlain, ite_eq_illegal_iff, argField_eq_iff]
  rfl

theorem decodeIndexed_eq_illegal_iff {c : Command} {i : Instr} {e : CommandError} :
    decodeIndexed c i = .illegal e ↔ 6 ≤ c.cw.toNat % 16 ∧ e = .illegalRegister (argField c.cw) := by
  rw [decodeIndexed, ite_eq_illegal_iff, legalIndex_eq_true, argField_toNat, Nat.not_lt]

theorem decodeAddressed_eq_illegal_iff {c : Command} {i : Instr} {e : CommandError} :
    decodeAddressed c i = .illegal e ↔ 14 ≤ c.cw.toNat % 16 ∧ e = .illegalAddress (argField c.cw) := by
  rw [decodeAddressed, ite_eq_illegal_iff, Machine.legalAddress_eq_true, argField_toNat, Nat.not_lt]

theorem decodeQuantise_eq_illegal_iff {c : Command} {e : CommandError} :
    decodeQuantise c = .illegal e ↔
      (c.cw.toNat % 16 = 3 ∨ c.cw.toNat % 16 = 4 ∨ 6 ≤ c.cw.toNat % 16) ∧ e = .illegalRegister (argField c.cw) := by
  have hargs : (c.cw.toNat % 16 = 3 ∨ c.cw.toNat % 16 = 4 ∨ 6 ≤ c.cw.toNat % 16) ↔
      ¬ (argField c.cw = 0 ∨ argField c.cw = 1 ∨ argField c.cw = 2 ∨ argField c.cw = 5) := by
    simp only [argField_eq_iff, BitVec.ofNat_eq_ofNat, BitVec.toNat_ofNat]
    omega
  rw [hargs]
  unfold decodeQuantise
  split_ifs <;> simp_all [@eq_comm _ e]

/-- Everything an erroneous command word can be: one of the three errors, each for the fields its rule names and with the
info its rule names (R142 to R144). -/
theorem decode_eq_illegal_iff {c : Command} {e : CommandError} :
    decode c = .illegal e ↔
      IllegalOpcodeFields (c.cw.toNat / 16) (c.cw.toNat % 16) ∧ e = .illegalOpcode c.cw ∨
      IllegalRegisterFields (c.cw.toNat / 16) (c.cw.toNat % 16) ∧ e = .illegalRegister (argField c.cw) ∨
      IllegalAddressFields (c.cw.toNat / 16) (c.cw.toNat % 16) ∧ e = .illegalAddress (argField c.cw) := by
  unfold decode IllegalOpcodeFields IllegalRegisterFields IllegalAddressFields
  rw [← opField_toNat]
  split
  case h_1 op | h_6 op | h_7 op => simp [op, decodePlain_eq_illegal_iff]
  case h_2 op | h_3 op => simp [op, decodeIndexed_eq_illegal_iff]
  case h_4 op | h_5 op =>
    have hlast : 14 ≤ c.cw.toNat % 16 ↔ c.cw.toNat % 16 = 14 ∨ c.cw.toNat % 16 = 15 := by omega
    simp [op, decodeAddressed_eq_illegal_iff, hlast]
  case h_8 op => simp [op, decodeQuantise_eq_illegal_iff]
  case h_9 =>
    simp only [imp_false] at *
    have hop : 8 ≤ (opField c.cw).toNat := by omega
    simp [*, @eq_comm _ e]

/-! The three errors one by one. -/

theorem decode_eq_illegalOpcode_iff {c : Command} {x : BitVec 8} :
    decode c = .illegal (.illegalOpcode x) ↔
      IllegalOpcodeFields (c.cw.toNat / 16) (c.cw.toNat % 16) ∧ x = c.cw := by
  simp [decode_eq_illegal_iff]

theorem decode_eq_illegalRegister_iff {c : Command} {x : Nibble} :
    decode c = .illegal (.illegalRegister x) ↔
      IllegalRegisterFields (c.cw.toNat / 16) (c.cw.toNat % 16) ∧ x = argField c.cw := by
  simp [decode_eq_illegal_iff]

theorem decode_eq_illegalAddress_iff {c : Command} {x : Nibble} :
    decode c = .illegal (.illegalAddress x) ↔
      IllegalAddressFields (c.cw.toNat / 16) (c.cw.toNat % 16) ∧ x = argField c.cw := by
  simp [decode_eq_illegal_iff]

/-- Only a well-formed instruction decodes: the decoder has checked its index or address (R63). -/
theorem wellFormed_of_decode_eq_legal {c : Command} {i : Instr} (h : decode c = .legal i) : i.wellFormed = true := by
  unfold decode at h
  split at h
  case h_1 | h_6 | h_7 =>
    obtain ⟨-, rfl⟩ := ite_eq_legal_iff.mp h
    rfl
  case h_2 | h_3 | h_4 | h_5 =>
    obtain ⟨legal, rfl⟩ := ite_eq_legal_iff.mp h
    exact legal
  case h_8 =>
    unfold decodeQuantise at h
    split_ifs at h <;> cases h <;> rfl
  case h_9 => cases h

/-- A word outside the map decodes to an error. -/
theorem exists_decode_illegal {c : Command} (h : legalWord c.cw = false) : ∃ e, decode c = .illegal e := by
  cases hd : decode c with
  | legal i => cases h.symm.trans ((exists_decode_legal_iff c).mp ⟨i, hd⟩)
  | illegal e => exact ⟨e, rfl⟩

end Sys2Proof

namespace Sys2Proof.Machine

/-- Settles O5: the words by their two fields, the ranges as the same fields, the answer as the error's code. -/
theorem illegalOpcodeWords : Obligations.IllegalOpcodeWords := by
  have words (c : Command) : (∃ x, decode c = .illegal (.illegalOpcode x)) ↔
      IllegalOpcodeFields (c.cw.toNat / 16) (c.cw.toNat % 16) := by
    simp [decode_eq_illegalOpcode_iff]
  refine ⟨words, fun _ _ h => (decode_eq_illegalOpcode_iff.mp h).2,
    fun s c rest x hp hd => ⟨_, step_of_illegal hp rfl hd, rfl, rfl⟩, rfl, fun c => ?_⟩
  rw [words, IllegalOpcodeFields]
  omega

/-- Settles O6: the words by their two fields, the index by the decoder's info, the answer as the error's code. -/
theorem illegalRegisterWords : Obligations.IllegalRegisterWords := by
  have words (c : Command) : (∃ x, decode c = .illegal (.illegalRegister x)) ↔
      IllegalRegisterFields (c.cw.toNat / 16) (c.cw.toNat % 16) := by
    simp [decode_eq_illegalRegister_iff]
  refine ⟨words, fun _ _ h => (decode_eq_illegalRegister_iff.mp h).2,
    fun s c rest x hp hd => ⟨_, step_of_illegal hp rfl hd, rfl, rfl⟩, rfl, fun c => ?_⟩
  rw [words, IllegalRegisterFields]
  omega

/-- Settles O7: the words by their two fields, the address by the decoder's info, the answer as the error's code. -/
theorem illegalAddressWords : Obligations.IllegalAddressWords := by
  have words (c : Command) : (∃ x, decode c = .illegal (.illegalAddress x)) ↔
      IllegalAddressFields (c.cw.toNat / 16) (c.cw.toNat % 16) := by
    simp [decode_eq_illegalAddress_iff]
  refine ⟨words, fun _ _ h => (decode_eq_illegalAddress_iff.mp h).2,
    fun s c rest x hp hd => ⟨_, step_of_illegal hp rfl hd, rfl, rfl⟩, fun c => ?_⟩
  rw [words, IllegalAddressFields]
  omega

/-! The two outputs of the step before have no part in the next one. -/

@[simp] theorem State.answer_respond (s : State) (r : Resp) (d d' : Word) :
    (s.respond r d).answer d' = s.answer d' := rfl

@[simp] theorem State.raise_respond (s : State) (r : Resp) (d : Word) (e : CommandError) :
    (s.respond r d).raise e = s.raise e := rfl

@[simp] theorem State.frameByte_respond (s : State) (r : Resp) (d : Word) (b : Nat) :
    (s.respond r d).frameByte b = s.frameByte b := rfl

@[simp] theorem State.setReg_respond (s : State) (r : Resp) (d : Word) (q : Reg) (v : BitVec (regWidth q)) :
    (s.respond r d).setReg q v = (s.setReg q v).respond r d := by
  cases q <;> rfl

@[simp] theorem State.setFrameByte_respond (s : State) (r : Resp) (d : Word) (a : Nat) (v : Byte) :
    (s.respond r d).setFrameByte a v = (s.setFrameByte a v).respond r d := rfl

/-- A command reads neither output, and writes both. -/
theorem exec_respond (i : Instr) (s : State) (r : Resp) (d : Word) : exec i (s.respond r d) = exec i s := by
  cases i with
  | wrr q w => simp [exec, execWrr]
  | rdr q => simp [exec, execRdr]
  | wrb a w => simp [exec, execWrb]
  | rdb a => simp [exec, execRdb]
  | nop | enc | dec | qlat | qlon | qalt | qspd => rfl

/-- A step reads neither output of the step before: it fails, resets, runs its command or raises its error all the same. -/
theorem step_respond (s : State) (r : Resp) (d : Word) : step (s.respond r d) = step s := by
  cases hp : s.pending with
  | nil => rw [step_of_nothing hp, step_of_nothing (s := s.respond r d) hp]
  | cons x rest =>
    have hp' : (s.respond r d).pending = x :: rest := hp
    cases hx : x.reset with
    | true => rw [step_of_reset hp hx, step_of_reset hp' hx]; rfl
    | false =>
      cases hd : decode x.command with
      | legal i => rw [step_of_legal hp hx hd, step_of_legal hp' hx hd]; exact exec_respond i s.afterFetch r d
      | illegal e => rw [step_of_illegal hp hx hd, step_of_illegal hp' hx hd]; rfl

/-- A step that meets an erroneous word takes it from the port and sets the two outputs: nothing else (R141). -/
theorem step_of_illegal_eq {s : State} {c : Command} {rest : List PortInput} {e : CommandError}
    (hp : s.pending = ⟨false, c⟩ :: rest) (hd : decode c = .illegal e) :
    step s = .next (State.respond { s with pending := rest } (errorResp e) 0) := by
  rw [step_of_illegal hp rfl hd, State.afterFetch, hp]
  rfl

/-- Settles O8: the step sets the two outputs alone, and the next step reads neither. -/
theorem errorChangesNothing : Obligations.ErrorChangesNothing :=
  ⟨fun _ _ _ _ hp hd => step_of_illegal_eq hp hd,
    fun _ _ _ _ _ hp hd => ⟨_, step_of_illegal_eq hp hd, step_respond _ _ _⟩⟩

/-- No error answers OK (R66). -/
theorem errorResp_ne_ok (e : CommandError) : errorResp e ≠ .ok := by
  cases e <;> nofun

/-- Settles O9: the decoder reads the operand for no error, and a command that decodes is well formed, so it answers OK. -/
theorem errorsDependOnTheWordAlone : Obligations.ErrorsDependOnTheWordAlone := by
  refine ⟨fun _ _ w' _ h => decode_illegal_any_wdata h w', fun s c rest hp hlegal => ?_, fun s c rest hp hillegal => ?_⟩
  · obtain ⟨i, hd⟩ := (exists_decode_legal_iff c).mpr hlegal
    rw [step_of_legal hp rfl hd]
    exact exec_answers_ok (wellFormed_of_decode_eq_legal hd) _
  · obtain ⟨e, hd⟩ := exists_decode_illegal hillegal
    exact ⟨_, step_of_illegal hp rfl hd, errorResp_ne_ok e⟩

end Sys2Proof.Machine

/-! The reset state and the reset event (spec 70_reset_and_hazards.md R170, R171): all zero from any state, whatever command
is presented beside the request. -/

namespace Sys2Proof.Machine

/-- Every frame byte is 0 in the reset state (R171). -/
@[simp] theorem State.frameByte_reset (a : Nat) : State.reset.frameByte a = 0 := Memory.read_nil a

/-- A reset event leaves every frame byte 0 (R170). -/
@[simp] theorem State.frameByte_takeReset (s : State) (a : Nat) : s.takeReset.frameByte a = 0 := Memory.read_nil a

/-- A reset event leaves the record of the reset state (R170). -/
theorem sameRecord_reset_takeReset (s : State) : SameRecord State.reset s.takeReset := ⟨rfl, rfl, rfl, rfl, rfl, rfl⟩

/-- A step with a reset requested takes the command from the port and has no other use for it (R149, R170). -/
theorem step_of_reset_eq {s : State} {c : Command} {rest : List PortInput} (hp : s.pending = ⟨true, c⟩ :: rest) :
    step s = .next (State.takeReset { s with pending := rest }) := by
  rw [step_of_reset hp rfl, State.afterFetch, hp]
  rfl

/-- Settles O13: the record by definition, the frame bytes because no address is listed in the reset state. -/
theorem resetStateIsZero : Obligations.ResetStateIsZero :=
  ⟨rfl, rfl, rfl, rfl, rfl, rfl, fun a _ => State.frameByte_reset a⟩

/-- Settles O14: the step is the reset event on the state whose port input is taken, and that event is zero throughout. -/
theorem resetEvent : Obligations.ResetEvent :=
  ⟨rfl, fun s _ rest hp => ⟨_, step_of_reset_eq hp, sameRecord_reset_takeReset _, rfl, ⟨rfl, rfl, rfl, rfl, rfl, rfl⟩,
    State.frameByte_takeReset { s with pending := rest }, rfl, rfl⟩⟩

end Sys2Proof.Machine

/-! The encoder against the decoder (spec 30_encoding.md R63, R64, R68): decoding gives back what was encoded, and only what
the encoder writes decodes. -/

namespace Sys2Proof

/-- The instruction with another operand word; those that ignore the operand word stay as they are (R64).
`decode_encode_cw` says that the decoder puts the operand word in just this way. -/
def Instr.withOperand : Instr → Word → Instr
  | .wrr r _, w => .wrr r w
  | .wrb a _, w => .wrb a w
  | .qlat _, w => .qlat w
  | .qlon _, w => .qlon w
  | .qalt _, w => .qalt w
  | .qspd _, w => .qspd w
  | i, _ => i

/-- The operand word the encoder writes is the instruction's own. -/
@[simp] theorem Instr.withOperand_encode_wdata (i : Instr) : i.withOperand (encode i).wdata = i := by
  cases i <;> rfl

/-- The command word of a well-formed instruction decodes to it, with whatever operand word travels beside it. -/
theorem decode_encode_cw {i : Instr} (h : i.wellFormed = true) (w : Word) :
    decode ⟨(encode i).cw, w⟩ = .legal (i.withOperand w) := by
  cases i with
  | nop => exact decode_nop w
  | wrr r _ => exact decode_wrr h w
  | rdr r => exact decode_rdr h w
  | wrb a _ => exact decode_wrb h w
  | rdb a => exact decode_rdb h w
  | enc => exact decode_enc w
  | dec => exact decode_dec w
  | qlat _ => exact decode_qlat w
  | qlon _ => exact decode_qlon w
  | qalt _ => exact decode_qalt w
  | qspd _ => exact decode_qspd w

/-- A well-formed instruction is what its encoding decodes to. -/
theorem decode_encode {i : Instr} (h : i.wellFormed = true) : decode (encode i) = .legal i := by
  have hw := decode_encode_cw h (encode i).wdata
  rwa [Instr.withOperand_encode_wdata] at hw

/-- Settles O3: each row of the map by its equation, with the operand word the encoder writes. -/
theorem decodeOfEncode : Obligations.DecodeOfEncode := fun _ => decode_encode

/-- The operand word the encoder writes for a command: the one presented where `op` is WRR's, WRB's or a quantiser's, and 0
where it is ignored (R64, R68). -/
def keptOperand (c : Command) : Word :=
  if (opField c.cw).toNat = 1 ∨ (opField c.cw).toNat = 3 ∨ (opField c.cw).toNat = 7 then c.wdata else 0

theorem keptOperand_of_used {c : Command} {op : Nat} (hop : (opField c.cw).toNat = op) (h : op = 1 ∨ op = 3 ∨ op = 7) :
    keptOperand c = c.wdata :=
  if_pos (hop ▸ h)

theorem keptOperand_of_ignored {c : Command} {op : Nat} (hop : (opField c.cw).toNat = op)
    (h : ¬ (op = 1 ∨ op = 3 ∨ op = 7)) : keptOperand c = 0 :=
  if_neg (hop ▸ h)

/-- A command put together from its own fields and the operand word its `op` keeps (R61). -/
theorem command_of_fields {c : Command} {op : Nat} {arg : Nibble} {w : Word} (hop : (opField c.cw).toNat = op)
    (harg : argField c.cw = arg) (hw : keptOperand c = w) :
    (⟨commandWord (BitVec.ofNat 4 op) arg, w⟩ : Command) = ⟨c.cw, keptOperand c⟩ := by
  subst hop harg hw
  rw [BitVec.ofNat_toNat, BitVec.setWidth_eq, commandWord, fields_append]

/-- A command that decodes is the encoding of what it decodes to, but for an operand word that is ignored. -/
theorem encode_of_decode {c : Command} {i : Instr} (h : decode c = .legal i) : encode i = ⟨c.cw, keptOperand c⟩ := by
  unfold decode at h
  split at h
  case h_1 op | h_6 op | h_7 op =>
    obtain ⟨harg, rfl⟩ := ite_eq_legal_iff.mp h
    exact command_of_fields op harg (keptOperand_of_ignored op (by decide))
  case h_2 op | h_4 op =>
    obtain ⟨-, rfl⟩ := ite_eq_legal_iff.mp h
    exact command_of_fields op rfl (keptOperand_of_used op (by decide))
  case h_3 op | h_5 op =>
    obtain ⟨-, rfl⟩ := ite_eq_legal_iff.mp h
    exact command_of_fields op rfl (keptOperand_of_ignored op (by decide))
  case h_8 op =>
    unfold decodeQuantise at h
    split_ifs at h with harg harg harg harg <;> cases h <;>
      exact command_of_fields op harg (keptOperand_of_used op (by decide))
  case h_9 => cases h

/-- Settles O4: the decoder has checked the index or address, and every row gives the word back from its two fields. -/
theorem encodeOfDecode : Obligations.EncodeOfDecode := by
  intro c i h
  rw [encode_of_decode h, ← opField_toNat]
  exact ⟨wellFormed_of_decode_eq_legal h, rfl, rfl⟩

/-- Settles O1: each word is a row of the map, or selects no command. -/
theorem sampleWordsDecode : Obligations.SampleWordsDecode :=
  ⟨decode_nop _, decode_wrr (r := 4) rfl _, decode_rdr (r := 1) rfl _, decode_wrb (a := 9) rfl _,
    decode_rdb (a := 4) rfl _, decode_enc _, decode_dec _, decode_qlat _, decode_qlon _, decode_qalt _, decode_qspd _,
    decode_reserved (by decide)⟩

end Sys2Proof

/-! The assembler's lines (spec 30_encoding.md R68): each is the encoding of the instruction it names. -/

namespace Sys2Proof.Machine

/-! The sums of R68 against the two fields of the word: no carry leaves `cw[3:0]`. -/

theorem commandWord_add_reg (op : Nibble) (r : Reg) :
    commandWord op 0 + zext 8 (regIndex r) = commandWord op (regIndex r) := by
  cases r <;> revert op <;> decide

theorem commandWord_add_address (op : Nibble) (a : Fin 14) :
    commandWord op 0 + BitVec.ofNat 8 a.val = commandWord op (BitVec.ofNat 4 a.val) := by
  revert op a
  decide

/-- A frame address of the assembler is one of the fourteen, whose number fits the field. -/
theorem toNat_address (a : Fin 14) : (BitVec.ofNat 4 a.val).toNat = a.val :=
  Nat.mod_eq_of_lt (by omega)

/-- A line names a register or a frame byte that exists. -/
theorem AsmLine.instr_wellFormed (l : AsmLine) : l.instr.wellFormed = true := by
  cases l with
  | wrr r _ | rdr r => exact legalIndex_regIndex r
  | wrb a _ | rdb a => exact legalAddress_eq_true.mpr ((toNat_address a).symm ▸ a.isLt)
  | nop | enc | dec | qlat | qlon | qalt | qspd => rfl

/-- A line assembles to the encoding of the instruction it names. -/
theorem assemble_eq_encode (l : AsmLine) : assemble l = encode l.instr := by
  cases l with
  | wrr r v => exact congrArg (Command.mk · (bits 32 v)) (commandWord_add_reg 0x1 r)
  | rdr r => exact congrArg (Command.mk · 0) (commandWord_add_reg 0x2 r)
  | wrb a v => exact congrArg (Command.mk · (bits 32 v)) (commandWord_add_address 0x3 a)
  | rdb a => exact congrArg (Command.mk · 0) (commandWord_add_address 0x4 a)
  | nop | enc | dec | qlat | qlon | qalt | qspd => rfl

/-- An assembled line decodes to the instruction the line names. -/
theorem decode_assemble (l : AsmLine) : decode (assemble l) = .legal l.instr := by
  rw [assemble_eq_encode]
  exact decode_encode l.instr_wellFormed

/-- Settles O52: a line is the encoding of a well-formed instruction. -/
theorem assembledLinesDecode : Obligations.AssembledLinesDecode :=
  fun l => ⟨l.instr_wellFormed, decode_assemble l, assemble_eq_encode l⟩

end Sys2Proof.Machine

/-! One step (spec 00_scope.md R11; 60_exceptions.md R141 to R146): what it takes from the port, what it keeps, and the fault
recorded beside it. -/

namespace Sys2Proof.Machine

/-- Settles O12: the fetch takes the presented command from the port. -/
theorem stepRunsTheDecodedCommand : Obligations.StepRunsTheDecodedCommand := by
  intro s c rest i hp hd
  rw [step_of_legal hp rfl hd, State.afterFetch, hp]
  rfl

/-- Settles O15: the reset state lists no byte. -/
theorem invariantAtReset : Obligations.InvariantAtReset := Memory.nil_wf

/-- Every command keeps the frame buffer canonical: WRB stores at an address that exists, and ENC's stores keep the form. -/
theorem exec_keeps_inv {i : Instr} {s t : State} (hs : s.Inv) (h : exec i s = .next t) : t.Inv := by
  obtain ⟨d, e, -⟩ | ⟨r, v, e, -⟩ | ⟨k, v, hk, e, -⟩ | ⟨-, e⟩ | ⟨-, e⟩ | ⟨x, e, -⟩ := exec_cases i s
  all_goals
    rw [e] at h
    cases h
  · exact hs
  · rw [State.Inv, State.answer_frame, State.setReg_keeps_frame]
    exact hs
  · exact Memory.write_wf hs hk v
  · exact encodedFrame_wf hs
  · exact hs
  · exact hs

/-- Settles O16: a reset empties the frame buffer, a command keeps its form, an error leaves it alone. -/
theorem stepKeepsTheInvariant : Obligations.StepKeepsTheInvariant := by
  intro s t hs h
  obtain ⟨x, rest, -, ⟨-, rfl⟩ | ⟨-, i, -, run⟩ | ⟨-, e, -, rfl⟩⟩ := step_cases h
  · exact Memory.nil_wf
  · exact exec_keeps_inv (s := s.afterFetch) hs run
  · exact hs

/-- Settles O17: the parameters and the free values by the three things a step can be, the port by its one fetch. -/
theorem stepKeepsTheParameters : Obligations.StepKeepsTheParameters := by
  intro s t h
  have hport := step_pending h
  obtain ⟨x, rest, hp, ⟨-, rfl⟩ | ⟨-, i, -, run⟩ | ⟨-, e, -, rfl⟩⟩ := step_cases h
  all_goals refine ⟨?_, by simp [hp], hport, ?_⟩
  · rfl
  · exact Nat.le_succ _
  · exact (exec_keeps_surroundings run).1
  · exact (exec_keeps_surroundings run).2.2.ge
  · rfl
  · exact le_rfl

/-! The code of an error, and the fault that names it. -/

theorem respCode_eq_zero_iff {r : Resp} : respCode r = 0b00 ↔ r = .ok := by
  cases r <;> decide

theorem respCode_errorResp_ne_zero (e : CommandError) : respCode (errorResp e) ≠ 0b00 :=
  fun h => errorResp_ne_ok e (respCode_eq_zero_iff.mp h)

/-- The fault of an erroneous word is the one of its code, with the word and its low field (R142 to R144). -/
theorem errorFault_of_decode {c : Command} {e : CommandError} (h : decode c = .illegal e) :
    (respCode (errorResp e) = 0b01 → errorFault c.cw e = .illegalOpcode c.cw) ∧
    (respCode (errorResp e) = 0b10 → errorFault c.cw e = .illegalRegister c.cw (argField c.cw)) ∧
    (respCode (errorResp e) = 0b11 → errorFault c.cw e = .illegalAddress c.cw (argField c.cw)) := by
  obtain ⟨-, rfl⟩ | ⟨-, rfl⟩ | ⟨-, rfl⟩ := decode_eq_illegal_iff.mp h <;> simp [errorResp, respCode, errorFault]

/-- Settles O10: a legal word has no error and answers OK; an illegal one sets the outputs alone, and its fault is the one of
its code. -/
theorem commandErrorNamesEveryFailure : Obligations.CommandErrorNamesEveryFailure := by
  intro s c rest hp
  cases hd : decode c with
  | legal i =>
    have herr : s.commandError = none := commandError_of_legal hp rfl hd
    have hfault : s.commandFault = none := commandFault_of_legal hp rfl hd
    obtain ⟨t, run, hok⟩ := exec_answers_ok (wellFormed_of_decode_eq_legal hd) s.afterFetch
    refine ⟨iff_of_true herr ((exists_decode_legal_iff c).mp ⟨i, hd⟩), t, ?_⟩
    rw [step_of_legal hp rfl hd]
    simp [run, herr, hfault, hok, respCode]
  | illegal e =>
    have herr : s.commandError = some e := commandError_of_illegal hp rfl hd
    have hfault : s.commandFault = some (errorFault c.cw e) := commandFault_of_illegal hp rfl hd
    have hillegal : legalWord c.cw ≠ true := fun h => by
      obtain ⟨i, hi⟩ := (exists_decode_legal_iff c).mpr h
      cases hd.symm.trans hi
    obtain ⟨opcode, register, address⟩ := errorFault_of_decode hd
    rw [herr, hfault]
    refine ⟨iff_of_false nofun hillegal, _, step_of_illegal_eq hp hd, nofun, ?_, ?_,
      fun h => congrArg some (opcode h), fun h => congrArg some (register h), fun h => congrArg some (address h)⟩
    · rintro _ ⟨⟩
      exact ⟨rfl, respCode_errorResp_ne_zero e⟩
    · exact iff_of_false nofun (respCode_errorResp_ne_zero e)

end Sys2Proof.Machine

/-! What a command leaves alone (spec 10_state.md R23; 20_memory.md R45). -/

namespace Sys2Proof.Machine

/-- Settles O29: by everything one command can do. -/
theorem onlyWritersChangeARegister : Obligations.OnlyWritersChangeARegister := by
  intro i s
  obtain ⟨t, run⟩ := exec_completes i s
  exact ⟨t, run, fun _ hr => exec_keeps_reg hr run, exec_keeps_surroundings run⟩

/-- A command that writes none of the fourteen bytes leaves the frame buffer as data: only WRB and ENC store. -/
theorem exec_keeps_frame {i : Instr} {s t : State} (hw : ∀ k, k < 14 → i.writesByte k = false) (h : exec i s = .next t) :
    t.frame = s.frame := by
  obtain ⟨d, e, -⟩ | ⟨r, v, e, -⟩ | ⟨k, v, hk, -, hwrites⟩ | ⟨rfl, -⟩ | ⟨-, e⟩ | ⟨x, e, -⟩ := exec_cases i s
  case inr.inr.inl => cases (hw k hk).symm.trans hwrites
  case inr.inr.inr.inl => cases hw 0 (by decide)
  all_goals
    rw [e] at h
    cases h
    simp

/-- Settles O30: by everything one command can do. -/
theorem onlyWritersChangeAFrameByte : Obligations.OnlyWritersChangeAFrameByte := by
  intro i s
  obtain ⟨t, run⟩ := exec_completes i s
  exact ⟨t, run, fun _ hk => exec_keeps_frameByte hk run, fun hw => exec_keeps_frame hw run⟩

end Sys2Proof.Machine

/-! What has no part in a command: the registers and bytes it does not read, and the parameters (spec 10_state.md R23;
20_memory.md R45; 40_codec_enc_dec.md R91 (e)). Two runs of one command from two states are compared, so the command's
action is said once for all states. -/

namespace Sys2Proof.Machine

/-- The action of a command, the same from every state: a fixed answer (NOP, or the error of an index or address that names
nothing), a register or byte read, a register written with a value no state but the parameters has a part in, a byte
written, ENC, or DEC. Every command is of one of these kinds: `exec_acts`. -/
inductive Acts (i : Instr) : Prop
  | answers (r : Resp) (d : Word) (act : ∀ s, exec i s = .next (s.respond r d)) (noReg : ∀ q, i.writesReg q = false)
      (noByte : ∀ k, k < 14 → i.writesByte k = false)
  | readsReg (x : Reg) (eq : i = .rdr (regIndex x)) (act : ∀ s, exec i s = .next (s.answer (zext 32 (s.reg x))))
  | readsByte (a : Nibble) (eq : i = .rdb a) (act : ∀ s, exec i s = .next (s.answer (zext 32 (s.frameByte a.toNat))))
  | writesReg (x : Reg) (f : Config → BitVec (regWidth x))
      (act : ∀ s, exec i s = .next ((s.setReg x (f s.config)).answer 0)) (reg : ∀ q, i.writesReg q = decide (x = q))
      (noByte : ∀ k, i.writesByte k = false)
      (param : (∀ w, i ≠ .qlat w ∧ i ≠ .qlon w ∧ i ≠ .qalt w ∧ i ≠ .qspd w) → ∀ p p', f p = f p')
  | writesByte (a : Nibble) (w : Word) (eq : i = .wrb a w)
      (act : ∀ s, exec i s = .next ((s.setFrameByte a.toNat (byteOperand w)).answer 0))
  | encodes (eq : i = .enc)
  | decodes (eq : i = .dec)

/-- An index names a register, or is illegal. -/
theorem exists_reg_or_illegal (q : Nibble) : (∃ x, q = regIndex x) ∨ legalIndex q = false := by
  cases h : regOfIndex q with
  | some x => exact .inl ⟨x, regOfIndex_eq_some.mp h⟩
  | none => exact .inr (regOfIndex_eq_none.mp h)

theorem regIndex_inj {q r : Reg} : regIndex q = regIndex r ↔ q = r := by
  cases q <;> cases r <;> decide

/-- Every command is of one of the kinds. -/
theorem exec_acts (i : Instr) : Acts i := by
  cases i with
  | nop => exact .answers .ok 0 (fun _ => rfl) (fun _ => rfl) (fun _ _ => rfl)
  | wrr r w =>
    obtain ⟨x, rfl⟩ | hr := exists_reg_or_illegal r
    · exact .writesReg x (fun _ => registerOperand x w) (execWrr_regIndex x w)
        (fun q => decide_eq_decide.mpr (regIndex_inj.trans eq_comm)) (fun _ => rfl) (fun _ _ _ => rfl)
    · refine .answers .illegalRegister 0 (execWrr_illegal hr w) (fun q => decide_eq_false ?_) (fun _ _ => rfl)
      rintro rfl
      cases hr.symm.trans (legalIndex_regIndex q)
  | rdr r =>
    obtain ⟨x, rfl⟩ | hr := exists_reg_or_illegal r
    · exact .readsReg x rfl (execRdr_regIndex x)
    · exact .answers .illegalRegister 0 (execRdr_illegal hr) (fun _ => rfl) (fun _ _ => rfl)
  | wrb a w =>
    by_cases ha : a.toNat < 14
    · exact .writesByte a w rfl (execWrb_legal ha w)
    · exact .answers .illegalAddress 0 (execWrb_illegal (legalAddress_of_ge (Nat.le_of_not_lt ha)) w) (fun _ => rfl)
        (fun k hk => decide_eq_false (by omega))
  | rdb a =>
    by_cases ha : a.toNat < 14
    · exact .readsByte a rfl (execRdb_legal ha)
    · exact .answers .illegalAddress 0 (execRdb_illegal (legalAddress_of_ge (Nat.le_of_not_lt ha))) (fun _ => rfl)
        (fun _ _ => rfl)
  | enc => exact .encodes rfl
  | dec => exact .decodes rfl
  | qlat w =>
    exact .writesReg .lat (fun p => quantiseSigned p.degDiv w) (fun _ => rfl) (fun _ => decide_eq_decide.mpr eq_comm)
      (fun _ => rfl) (fun h => absurd rfl (h w).1)
  | qlon w =>
    exact .writesReg .lon (fun p => quantiseSigned p.degDiv w) (fun _ => rfl) (fun _ => decide_eq_decide.mpr eq_comm)
      (fun _ => rfl) (fun h => absurd rfl (h w).2.1)
  | qalt w =>
    exact .writesReg .alt (fun p => quantiseSigned p.altDiv w) (fun _ => rfl) (fun _ => decide_eq_decide.mpr eq_comm)
      (fun _ => rfl) (fun h => absurd rfl (h w).2.2.1)
  | qspd w =>
    exact .writesReg .spd (fun p => quantiseUnsigned p.spdDiv w) (fun _ => rfl) (fun _ => decide_eq_decide.mpr eq_comm)
      (fun _ => rfl) (fun h => absurd rfl (h w).2.2.2)

/-! A register written beforehand, under each operation of a command. -/

section

variable (s : State) (r : Reg) (v : BitVec (regWidth r))

@[simp] theorem State.answer_setReg (d : Word) : (s.setReg r v).answer d = (s.answer d).setReg r v :=
  (s.setReg_respond .ok d r v).symm

@[simp] theorem State.setFrameByte_setReg (a : Nat) (b : Byte) :
    (s.setReg r v).setFrameByte a b = (s.setFrameByte a b).setReg r v := by
  cases r <;> rfl

/-- DEC reads no register. -/
@[simp] theorem decodedRecord_setReg : decodedRecord (s.setReg r v) = decodedRecord s := by
  cases r <;> rfl

/-- The second of two writes to one register is the one that stays; writes to two registers are independent (R22). -/
theorem State.setReg_setReg (q : Reg) (u : BitVec (regWidth q)) :
    (s.setReg r v).setReg q u = if q = r then s.setReg q u else (s.setReg q u).setReg r v := by
  cases q <;> cases r <;> rfl

end

/-- Settles O31: by the kinds of commands, a register written beforehand being either read, overwritten or left. -/
theorem onlyReadRegistersMatter : Obligations.OnlyReadRegistersMatter := by
  intro i s t r v hr h
  cases exec_acts i with
  | answers c d act noReg noByte =>
    cases (act s).symm.trans h
    simp [act, noReg]
  | readsReg x eq act =>
    subst eq
    have hne : x ≠ r := fun e => of_decide_eq_false hr (congrArg regIndex e.symm)
    cases (act s).symm.trans h
    simp [act, State.reg_setReg_ne s hne, Instr.writesReg]
  | readsByte a eq act =>
    subst eq
    cases (act s).symm.trans h
    simp [act, Instr.writesReg]
  | writesReg x f act reg noByte param =>
    cases (act s).symm.trans h
    rw [act, State.setReg_keeps_config, State.setReg_setReg, reg]
    by_cases hx : x = r <;> simp [hx]
  | writesByte a w eq act =>
    subst eq
    cases (act s).symm.trans h
    simp [act, Instr.writesReg]
  | encodes eq =>
    subst eq
    cases hr -- ENC reads every register
  | decodes eq =>
    subst eq
    cases h
    exact congrArg (fun u : State => Host.Outcome.next (u.answer 0)) (decodedRecord_setReg s r v)

/-- Settles O33: only the value a quantiser writes has a parameter in it. -/
theorem parametersMatterToQuantisersAlone : Obligations.ParametersMatterToQuantisersAlone := by
  intro i s t p hq h
  cases exec_acts i with
  | answers c d act noReg noByte =>
    cases (act s).symm.trans h
    exact act _
  | readsReg x eq act =>
    cases (act s).symm.trans h
    rw [act]
    cases x <;> rfl
  | readsByte a eq act =>
    cases (act s).symm.trans h
    exact act _
  | writesReg x f act reg noByte param =>
    cases (act s).symm.trans h
    rw [act, param hq p s.config]
    cases x <;> rfl
  | writesByte a w eq act =>
    cases (act s).symm.trans h
    exact act _
  | encodes eq =>
    subst eq
    cases h
    rfl
  | decodes eq =>
    subst eq
    cases h
    rfl

/-! A frame byte written beforehand, under each operation of a command. -/

/-- The two states are the same in everything but the frame byte at k. -/
def SameButByte (k : Nat) (t u : State) : Prop :=
  SameRecord t u ∧ SameSurroundings t u ∧ Answers u t.resp t.rdata ∧ ∀ b, b ≠ k → u.frameByte b = t.frameByte b

theorem sameButByte_setFrameByte (t : State) (k : Nat) (v : Byte) : SameButByte k t (t.setFrameByte k v) :=
  ⟨⟨rfl, rfl, rfl, rfl, rfl, rfl⟩, ⟨rfl, rfl, rfl⟩, ⟨rfl, rfl⟩, fun _ hb => t.frameByte_setFrameByte_ne hb v⟩

/-- The fourteen bytes ENC leaves come from the record alone. -/
theorem read_encodedFrame_of_sameRecord {s t : State} (h : SameRecord s t) {b : Nat} (hb : b < 14) :
    (encodedFrame t).read b = (encodedFrame s).read b := by
  obtain ⟨hlat, hlon, halt, hhdop, hbat, hspd⟩ := h
  rw [read_encodedFrame, read_encodedFrame, hlat, hlon, halt, hhdop, hbat, hspd, if_pos hb, if_pos hb]

/-- ENC overwrites a byte written beforehand. -/
theorem read_encodedFrame_setFrameByte (s : State) {k : Nat} (hk : k < 14) (v : Byte) (b : Nat) :
    (encodedFrame (s.setFrameByte k v)).read b = (encodedFrame s).read b := by
  by_cases hb : b < 14
  · exact read_encodedFrame_of_sameRecord (sameButByte_setFrameByte s k v).1 hb
  · rw [read_encodedFrame_of_ge _ (Nat.le_of_not_lt hb), read_encodedFrame_of_ge _ (Nat.le_of_not_lt hb),
      State.frameByte_setFrameByte_ne s (by omega)]

theorem State.frameByte_setFrameByte (s : State) (a : Nat) (v : Byte) (b : Nat) :
    (s.setFrameByte a v).frameByte b = if b = a then v else s.frameByte b :=
  Memory.read_write s.frame a v b

/-- A command that does not read a frame byte, run with another value in it: the value is overwritten or passed on. -/
theorem exec_setFrameByte {i : Instr} {s : State} {k : Nat} (v : Byte) (hk : k < 14) (hr : i.readsByte k = false) {t : State}
    (h : exec i s = .next t) :
    ∃ u, exec i (s.setFrameByte k v) = .next u ∧ SameButByte k t u ∧
      u.frameByte k = if i.writesByte k = true then t.frameByte k else v := by
  -- where the byte is neither read nor written, it can as well be put there afterwards
  have passed {u : State} (act : exec i (s.setFrameByte k v) = .next (u.setFrameByte k v)) (no : i.writesByte k = false) :
      ∃ u', exec i (s.setFrameByte k v) = .next u' ∧ SameButByte k u u' ∧
        u'.frameByte k = if i.writesByte k = true then u.frameByte k else v := by
    refine ⟨_, act, sameButByte_setFrameByte u k v, ?_⟩
    rw [no]
    exact u.frameByte_setFrameByte_self k v
  cases exec_acts i with
  | answers c d act noReg noByte =>
    cases (act s).symm.trans h
    exact passed (act _) (noByte k hk)
  | readsReg x eq act =>
    subst eq
    cases (act s).symm.trans h
    refine passed ((act _).trans ?_) rfl
    rw [State.reg_setFrameByte]
    rfl
  | readsByte a eq act =>
    subst eq
    have hne : a.toNat ≠ k := of_decide_eq_false hr
    cases (act s).symm.trans h
    refine passed ((act _).trans ?_) rfl
    rw [State.frameByte_setFrameByte_ne s hne]
    rfl
  | writesReg x f act reg noByte param =>
    cases (act s).symm.trans h
    refine passed ((act _).trans ?_) (noByte k)
    cases x <;> rfl
  | writesByte a w eq act =>
    subst eq
    cases (act s).symm.trans h
    refine ⟨_, act _, ⟨⟨rfl, rfl, rfl, rfl, rfl, rfl⟩, ⟨rfl, rfl, rfl⟩, ⟨rfl, rfl⟩, fun b hb => ?_⟩, ?_⟩
    · simp [State.frameByte_setFrameByte, hb]
    · by_cases ha : a.toNat = k <;> simp [State.frameByte_setFrameByte, Instr.writesByte, ha, @eq_comm _ k]
  | encodes eq =>
    subst eq
    cases h
    refine ⟨_, rfl, ⟨⟨rfl, rfl, rfl, rfl, rfl, rfl⟩, ⟨rfl, rfl, rfl⟩, ⟨rfl, rfl⟩, fun b _ => ?_⟩, ?_⟩
    · exact read_encodedFrame_setFrameByte s hk v b
    · exact (read_encodedFrame_setFrameByte s hk v k).trans (if_pos (decide_eq_true hk)).symm
  | decodes eq =>
    subst eq
    exact absurd hk (of_decide_eq_false hr) -- DEC reads every byte

/-- Settles O32: a byte written beforehand is passed on, overwritten, or read. -/
theorem onlyReadFrameBytesMatter : Obligations.OnlyReadFrameBytesMatter := by
  intro i s t k v hk hr h
  obtain ⟨u, run, ⟨record, surroundings, answers, others⟩, byte⟩ := exec_setFrameByte v hk hr h
  exact ⟨u, run, record, surroundings, answers, others, byte⟩

end Sys2Proof.Machine

/-! The operand bits a command ignores (spec 30_encoding.md R64). -/

namespace Sys2Proof.Machine

/-- The low bits of two operand words agree when the slices do. -/
theorem trunc_congr {n : Nat} (hn : n ≤ 32) {w w' : Word} (h : w.extractLsb' 0 n = w'.extractLsb' 0 n) :
    trunc n w = trunc n w' := by
  rw [trunc, BitVec.setWidth_eq_extractLsb' hn, h, ← BitVec.setWidth_eq_extractLsb' hn]

/-- A command word as a number (R61). -/
theorem toNat_commandWord (op arg : Nibble) : (commandWord op arg).toNat = 16 * op.toNat + arg.toNat := by
  revert op arg
  decide

end Sys2Proof.Machine

namespace Sys2Proof

/-- A word that decodes with one operand word decodes with every other, to the same instruction with that operand (R145). -/
theorem decode_any_wdata {cw : BitVec 8} {w : Word} {i : Instr} (h : decode ⟨cw, w⟩ = .legal i) (w' : Word) :
    decode ⟨cw, w'⟩ = .legal (i.withOperand w') := by
  have hcw : (encode i).cw = cw := congrArg Command.cw (encode_of_decode h)
  rw [← hcw]
  exact decode_encode_cw (wellFormed_of_decode_eq_legal h) w'

end Sys2Proof

namespace Sys2Proof.Machine

/-- A command does the same with two operand words that agree on the bits it uses (R64). -/
theorem exec_withOperand_congr {i : Instr} (hi : i.wellFormed = true) {w w' : Word} {n : Nat} (hn : (encode i).cw.toNat = n)
    (all : (0x10 ≤ n ∧ n ≤ 0x12 ∨ 0x70 ≤ n ∧ n ≤ 0x72 ∨ n = 0x75) → w = w')
    (byte : (0x13 ≤ n ∧ n ≤ 0x14 ∨ 0x30 ≤ n ∧ n ≤ 0x3D) → w.extractLsb' 0 8 = w'.extractLsb' 0 8)
    (half : n = 0x15 → w.extractLsb' 0 16 = w'.extractLsb' 0 16) (s : State) :
    exec (i.withOperand w) s = exec (i.withOperand w') s := by
  cases i with
  | nop | rdr | rdb | enc | dec => rfl
  | qlat _ => rw [all (by obtain rfl : 0x70 = n := hn; decide)]
  | qlon _ => rw [all (by obtain rfl : 0x71 = n := hn; decide)]
  | qalt _ => rw [all (by obtain rfl : 0x72 = n := hn; decide)]
  | qspd _ => rw [all (by obtain rfl : 0x75 = n := hn; decide)]
  | wrr r _ =>
    obtain ⟨x, rfl⟩ | hr := exists_reg_or_illegal r
    · obtain rfl : 0x10 + (regIndex x).toNat = n := (toNat_commandWord 0x1 _).symm.trans hn
      have hop : registerOperand x w = registerOperand x w' := by
        cases x with
        | lat | lon | alt => rw [all (by decide)]
        | hdop | bat => exact trunc_congr (by decide) (byte (by decide))
        | spd => exact trunc_congr (by decide) (half (by decide))
      exact (execWrr_regIndex x w s).trans (hop ▸ (execWrr_regIndex x w' s).symm)
    · cases hr.symm.trans hi
  | wrb a _ =>
    have ha : a.toNat < 14 := legalAddress_eq_true.mp hi
    obtain rfl : 0x30 + a.toNat = n := (toNat_commandWord 0x3 a).symm.trans hn
    have hop : byteOperand w = byteOperand w' := trunc_congr (by decide) (byte (by omega))
    exact (execWrb_legal ha w s).trans (hop ▸ (execWrb_legal ha w' s).symm)

/-- Settles O34: an illegal word is the same error with every operand, and a legal one the same command but for its operand. -/
theorem ignoredOperandBitsDoNotMatter : Obligations.IgnoredOperandBitsDoNotMatter := by
  intro s cw w w' rest all byte half
  cases hd : decode ⟨cw, w⟩ with
  | legal i =>
    have hcw : (encode i).cw = cw := congrArg Command.cw (encode_of_decode hd)
    have hi := wellFormed_of_decode_eq_legal hd
    rw [step_of_legal (x := ⟨false, ⟨cw, w⟩⟩) rfl rfl (decode_any_wdata hd w),
      step_of_legal (x := ⟨false, ⟨cw, w'⟩⟩) rfl rfl (decode_any_wdata hd w')]
    exact exec_withOperand_congr hi (congrArg BitVec.toNat hcw) all byte half _
  | illegal e =>
    rw [step_of_illegal (x := ⟨false, ⟨cw, w⟩⟩) rfl rfl hd,
      step_of_illegal (x := ⟨false, ⟨cw, w'⟩⟩) rfl rfl (decode_illegal_any_wdata hd w')]
    rfl

end Sys2Proof.Machine

/-! The laws between ENC and DEC (spec 40_codec_enc_dec.md section 4): the fourteen bytes are six fields, ENC writes them from
the record and DEC reads them back. -/

namespace Sys2Proof.Machine

/-! A little-endian read in parts. -/

/-- Equal reads have equal bytes. -/
theorem Memory.read_eq_of_readLE_eq {m m' : Memory} {a n : Nat} (h : m.readLE a n = m'.readLE a n) {b : Nat} (hab : a ≤ b)
    (hbn : b < a + n) : m.read b = m'.read b := by
  obtain ⟨k, rfl⟩ := Nat.exists_eq_add_of_le hab
  rw [← Memory.extractLsb'_readLE m a n (by omega), h, Memory.extractLsb'_readLE m' a n (by omega)]

/-- The fourteen bytes agree exactly when the six fields of the layout (R44) do. -/
theorem sameBytes_iff_sameFields {m m' : Memory} :
    (∀ a, a < 14 → m.read a = m'.read a) ↔
      m.readLE 0 4 = m'.readLE 0 4 ∧ m.readLE 4 4 = m'.readLE 4 4 ∧ m.readLE 8 2 = m'.readLE 8 2 ∧
      m.readLE 10 1 = m'.readLE 10 1 ∧ m.readLE 11 1 = m'.readLE 11 1 ∧ m.readLE 12 2 = m'.readLE 12 2 := by
  constructor
  · intro h
    refine ⟨?_, ?_, ?_, ?_, ?_, ?_⟩ <;> exact Memory.readLE_congr fun b _ hb => h b (by omega)
  · rintro ⟨hlat, hlon, halt, hhdop, hbat, hspd⟩ a ha
    obtain h | h | h | h | h | h :
        a < 4 ∨ (4 ≤ a ∧ a < 8) ∨ (8 ≤ a ∧ a < 10) ∨ (10 ≤ a ∧ a < 11) ∨ (11 ≤ a ∧ a < 12) ∨ 12 ≤ a := by omega
    · exact Memory.read_eq_of_readLE_eq hlat (Nat.zero_le a) (by omega)
    · exact Memory.read_eq_of_readLE_eq hlon h.1 h.2
    · exact Memory.read_eq_of_readLE_eq halt h.1 h.2
    · exact Memory.read_eq_of_readLE_eq hhdop h.1 h.2
    · exact Memory.read_eq_of_readLE_eq hbat h.1 h.2
    · exact Memory.read_eq_of_readLE_eq hspd h (by omega)

/-! The altitude: its low half, and when sign extension gives it back. -/

/-- A half-word as a signed number lies in −32768 to 32767 (R7). -/
theorem toInt_half_range (h : Half) : -32768 ≤ h.toInt ∧ h.toInt ≤ 32767 :=
  ⟨BitVec.le_toInt h, Int.le_of_lt_add_one (BitVec.toInt_lt (x := h))⟩

/-- The low half is congruent to the word (R86). -/
theorem toInt_lowHalf_emod (v : Word) : (v.extractLsb' 0 16).toInt % 65536 = v.toInt % 65536 := by
  have hhalf : ((v.toNat : Int).bmod (2 ^ 16)) % 65536 = v.toNat % 65536 := Int.bmod_emod
  have hword : v.toInt = v.toNat ∨ v.toInt = v.toNat - 4294967296 := by
    rw [BitVec.toInt_eq_toNat_cond]
    split <;> simp
  rw [toInt_lowHalf, hhalf]
  omega

/-- The low half is the word as a number exactly where 16 signed bits hold it (R86). -/
theorem toInt_lowHalf_eq_iff (v : Word) :
    (v.extractLsb' 0 16).toInt = v.toInt ↔ -32768 ≤ v.toInt ∧ v.toInt ≤ 32767 := by
  have hcongr := toInt_lowHalf_emod v
  have hrange := toInt_half_range (v.extractLsb' 0 16)
  omega

/-- Sign extension gives a word back from its low half exactly where 16 signed bits hold it (R89). -/
theorem sext_lowHalf_eq_iff_range (v : Word) :
    sext 32 (v.extractLsb' 0 16) = v ↔ -32768 ≤ v.toInt ∧ v.toInt ≤ 32767 := by
  rw [← toInt_lowHalf_eq_iff, ← BitVec.toInt_inj, BitVec.toInt_signExtend_of_le (by decide)]

/-- Sign extension gives a word back from its low half exactly where the high half repeats bit 15 (R91 (c)). -/
theorem sext_lowHalf_eq_iff_bits (v : Word) :
    sext 32 (v.extractLsb' 0 16) = v ↔ ∀ i, 16 ≤ i → i < 32 → v.getLsbD i = v.getLsbD 15 := by
  have bit (i : Nat) (hi : i < 32) :
      (sext 32 (v.extractLsb' 0 16)).getLsbD i = if i < 16 then v.getLsbD i else v.getLsbD 15 := by
    rw [BitVec.getLsbD_signExtend, BitVec.msb_eq_getLsbD_last]
    by_cases hlow : i < 16 <;> simp [hi, hlow]
  constructor
  · intro h i h16 h32
    rw [← bit i h32 |>.trans (if_neg (Nat.not_lt.mpr h16)), h]
  · intro h
    refine BitVec.eq_of_getLsbD_eq fun i hi => (bit i hi).trans ?_
    split
    · rfl
    · exact (h i (by omega) hi).symm

theorem sext_inj {x y : Half} : sext 32 x = sext 32 y ↔ x = y :=
  ⟨fun h => (extractLsb'_sext x).symm.trans ((congrArg _ h).trans (extractLsb'_sext y)), congrArg _⟩

/-! ENC after DEC, and DEC after ENC. -/

/-- DEC then ENC leaves every byte (R90): each field is written back as it was read. -/
theorem read_encodedFrame_decodedRecord (s : State) (a : Nat) : (encodedFrame (decodedRecord s)).read a = s.frameByte a := by
  by_cases ha : a < 14
  · refine sameBytes_iff_sameFields.mpr ⟨encodedFrame_lat _, encodedFrame_lon _, (encodedFrame_alt _).trans ?_,
      encodedFrame_hdop _, encodedFrame_bat _, encodedFrame_spd _⟩ a ha
    exact extractLsb'_sext _
  · exact read_encodedFrame_of_ge _ (Nat.le_of_not_lt ha)

/-- ENC then DEC leaves every register but the high half of the altitude (R89). -/
theorem sameRecord_decode_encode_iff (s : State) :
    SameRecord s (decodedRecord { s with frame := encodedFrame s }) ↔ sext 32 (s.alt.extractLsb' 0 16) = s.alt := by
  simp [SameRecord, encodedFrame_lat, encodedFrame_lon, encodedFrame_alt, encodedFrame_hdop, encodedFrame_bat,
    encodedFrame_spd]

/-- Settles O35: each register by its field in the encoded frame, the altitude by its sign extension. -/
theorem encThenDecRecord : Obligations.EncThenDecRecord := by
  intro s
  refine ⟨_, _, rfl, rfl, encodedFrame_lat s, encodedFrame_lon s, encodedFrame_hdop s, encodedFrame_bat s,
    encodedFrame_spd s, congrArg (sext 32) (encodedFrame_alt s), ?_⟩
  exact (sameRecord_decode_encode_iff s).trans (sext_lowHalf_eq_iff_range s.alt)

/-- Settles O36: byte by byte, and in canonical form equal bytes are equal data. -/
theorem decThenEncFrame : Obligations.DecThenEncFrame := by
  intro s
  have bytes := read_encodedFrame_decodedRecord s
  exact ⟨_, _, rfl, rfl, bytes, fun h => Memory.ext_of_wf (encodedFrame_wf (s := decodedRecord s) h) h bytes⟩

/-- The altitude ENC leaves: the second byte is the high one (R86). -/
theorem encodedFrame_alt_bytes (s : State) :
    (encodedFrame s).read 9 ++ (encodedFrame s).read 8 = s.alt.extractLsb' 0 16 :=
  (Memory.readLE_two _ 8).symm.trans (encodedFrame_alt s)

/-- Settles O37: FB[9]:FB[8] is the low half of the altitude, and what holds of the one holds of the other. -/
theorem encodedAltitude : Obligations.EncodedAltitude := by
  intro s
  have claim (h : Half) (eq : h = s.alt.extractLsb' 0 16) : h = s.alt.extractLsb' 0 16 ∧ -32768 ≤ h.toInt ∧
      h.toInt ≤ 32767 ∧ h.toInt % 65536 = s.alt.toInt % 65536 ∧
      (h.toInt = s.alt.toInt ↔ -32768 ≤ s.alt.toInt ∧ s.alt.toInt ≤ 32767) := by
    subst eq
    obtain ⟨low, high⟩ := toInt_half_range (s.alt.extractLsb' 0 16)
    exact ⟨rfl, low, high, toInt_lowHalf_emod s.alt, toInt_lowHalf_eq_iff s.alt⟩
  exact ⟨_, rfl, claim _ (encodedFrame_alt_bytes s)⟩

/-- ENC once more writes the same bytes: it has left the record as it was (R91 (a)). -/
theorem read_encodedFrame_twice (s : State) (a : Nat) :
    (encodedFrame { s with frame := encodedFrame s }).read a = (encodedFrame s).read a := by
  by_cases ha : a < 14
  · exact read_encodedFrame_of_sameRecord (s := s) (t := { s with frame := encodedFrame s }) ⟨rfl, rfl, rfl, rfl, rfl, rfl⟩ ha
  · exact read_encodedFrame_of_ge _ (Nat.le_of_not_lt ha)

/-- Two records give the same fourteen bytes exactly when they agree outside ALT[31:16] (R91 (b)). -/
theorem sameBytes_encodedFrame_iff (s s' : State) :
    (∀ a, a < 14 → (encodedFrame s).read a = (encodedFrame s').read a) ↔
      s.lat = s'.lat ∧ s.lon = s'.lon ∧ s.alt.extractLsb' 0 16 = s'.alt.extractLsb' 0 16 ∧ s.hdop = s'.hdop ∧
      s.bat = s'.bat ∧ s.spd = s'.spd := by
  rw [sameBytes_iff_sameFields]
  simp only [encodedFrame_lat, encodedFrame_lon, encodedFrame_alt, encodedFrame_hdop, encodedFrame_bat, encodedFrame_spd]

/-- The frame buffer with given bytes at the addresses below n. -/
def Memory.ofBytes (f : Nat → Byte) : Nat → Memory
  | 0 => []
  | n + 1 => (Memory.ofBytes f n).write n (f n)

theorem Memory.read_ofBytes (f : Nat → Byte) {n a : Nat} (h : a < n) : (Memory.ofBytes f n).read a = f a := by
  induction n with
  | zero => cases h
  | succ n ih =>
    rw [Memory.ofBytes, Memory.read_write]
    by_cases ha : a = n
    · rw [if_pos ha, ha]
    · rw [if_neg ha, ih (by omega)]

/-- Every content of the fourteen bytes is some state's. -/
theorem exists_state_with_bytes (f : Nat → Byte) : ∃ s : State, ∀ a, a < 14 → s.frameByte a = f a :=
  ⟨{ State.reset with frame := Memory.ofBytes f 14 }, fun _ => Memory.read_ofBytes f⟩

/-- Settles O38: ENC writes from the record alone, its bytes are the six fields, and every frame is left by ENC from the
record DEC reads out of it. -/
theorem encodingIsOnto : Obligations.EncodingIsOnto := by
  refine ⟨fun s => ⟨_, rfl, _, rfl, read_encodedFrame_twice s, rfl, rfl, rfl, rfl, rfl, rfl⟩,
    fun s s' => ⟨_, _, rfl, rfl, sameBytes_encodedFrame_iff s s'⟩, fun f => ?_⟩
  obtain ⟨s, hs⟩ := exists_state_with_bytes f
  exact ⟨decodedRecord s, _, rfl, fun a ha => (read_encodedFrame_decodedRecord s a).trans (hs a ha)⟩

/-- Two frames give the same record exactly when their fourteen bytes agree (R91 (a)). -/
theorem sameRecord_decodedRecord_iff (s s' : State) :
    SameRecord (decodedRecord s') (decodedRecord s) ↔ ∀ a, a < 14 → s.frameByte a = s'.frameByte a := by
  refine Iff.trans ?_ sameBytes_iff_sameFields.symm
  simp only [SameRecord, decodedRecord_lat, decodedRecord_lon, decodedRecord_alt, decodedRecord_hdop, decodedRecord_bat,
    decodedRecord_spd, sext_inj]

/-- A record is what DEC reads from some frame exactly when its altitude is the sign extension of its low half: that frame
is then the one ENC leaves (R91 (c)). -/
theorem exists_decodedRecord_iff (r : State) :
    (∃ s, SameRecord r (decodedRecord s)) ↔ sext 32 (r.alt.extractLsb' 0 16) = r.alt := by
  constructor
  · rintro ⟨s, -, -, halt, -⟩
    rw [← halt, decodedRecord_alt, extractLsb'_sext]
  · intro h
    exact ⟨_, (sameRecord_decode_encode_iff r).mpr h⟩

/-- Settles O39: DEC reads from the frame alone, its registers are the six fields, and their altitude is a sign extension. -/
theorem decodingIsOneToOne : Obligations.DecodingIsOneToOne := by
  refine ⟨fun s => ⟨_, rfl, rfl⟩, fun s s' => ⟨_, _, rfl, rfl, ?_⟩, fun r => ?_⟩
  · exact (sameRecord_decodedRecord_iff s' s).trans (forall₂_congr fun _ _ => eq_comm)
  · rw [← sext_lowHalf_eq_iff_bits, ← exists_decodedRecord_iff]
    constructor
    · rintro ⟨s, _, ⟨⟩, h⟩
      exact ⟨s, h⟩
    · rintro ⟨s, h⟩
      exact ⟨s, _, rfl, h⟩

/-- Sign extension keeps the low byte. -/
theorem extractLsb'_sext_append (hi lo : Byte) : (sext 32 (hi ++ lo : Half)).extractLsb' 0 8 = lo := by
  refine BitVec.eq_of_getLsbD_eq fun i h8 => ?_
  rw [BitVec.getLsbD_extractLsb', BitVec.getLsbD_signExtend, if_pos (by omega), BitVec.getLsbD_append,
    if_pos (by omega), Nat.zero_add]
  simp [h8, show i < 32 by omega]

/-- Settles O42: the stored byte is the high one of the altitude DEC reads, and FB[8] its low one. -/
theorem signByteDecidesTheAltitude : Obligations.SignByteDecidesTheAltitude := by
  intro s w hw
  have high : (s.setFrameByte 9 (byteOperand w)).frameByte 9 = byteOperand w := s.frameByte_setFrameByte_self 9 _
  have low : (s.setFrameByte 9 (byteOperand w)).frameByte 8 = s.frameByte 8 := s.frameByte_setFrameByte_ne (by decide) _
  have alt : (decodedRecord (s.setFrameByte 9 (byteOperand w))).alt = sext 32 (byteOperand w ++ s.frameByte 8 : Half) := by
    rw [decodedRecord_alt_bytes, high, low]
  refine ⟨_, _, execWrb_legal (a := 9) (by decide) w s, rfl, ?_, ?_⟩
  · have sign : (sext 32 (byteOperand w ++ s.frameByte 8 : Half)).msb = true := by
      rw [BitVec.msb_eq_getLsbD_last, getLsbD_sext_append_of_ge _ _ (by decide) (by decide)]
      simpa [byteOperand] using hw
    rw [BitVec.msb_eq_toInt, ← alt] at sign
    exact of_decide_eq_true sign
  · exact (congrArg (BitVec.extractLsb' 0 8) alt).trans (extractLsb'_sext_append _ _)

end Sys2Proof.Machine

/-! The `frame` port (spec 10_state.md R31; 40_codec_enc_dec.md R92): one little-endian read of the fourteen bytes, taken apart
and put together at the borders of the fields. -/

namespace Sys2Proof.Machine

/-- A part of a little-endian read is the read of that part. -/
theorem Memory.extractLsb'_readLE_part (m : Memory) (a : Nat) {n k j : Nat} (h : k + j ≤ n) :
    (m.readLE a n).extractLsb' (8 * k) (8 * j) = m.readLE (a + k) j := by
  refine BitVec.eq_of_getLsbD_eq fun i hi => ?_
  have hpart : 8 * k + i < 8 * n := by omega
  have hdiv : a + (8 * k + i) / 8 = a + k + i / 8 := by omega
  have hmod : (8 * k + i) % 8 = i % 8 := by omega
  rw [BitVec.getLsbD_extractLsb', Memory.getLsbD_readLE, Memory.getLsbD_readLE, hdiv, hmod]
  simp [hi, hpart]

/-- A little-endian read is its upper part before its lower part. -/
theorem Memory.readLE_add (m : Memory) (a j n : Nat) :
    m.readLE a (j + n) = (m.readLE (a + n) j ++ m.readLE a n).cast (by omega) := by
  refine BitVec.eq_of_getLsbD_eq fun i hi => ?_
  rw [BitVec.getLsbD_cast, BitVec.getLsbD_append, Memory.getLsbD_readLE, Memory.getLsbD_readLE, Memory.getLsbD_readLE]
  split
  · simp [*]
  · have hdiv : a + n + (i - 8 * n) / 8 = a + i / 8 := by omega
    have hmod : (i - 8 * n) % 8 = i % 8 := by omega
    have hpart : i - 8 * n < 8 * j := by omega
    simp [hdiv, hmod, hi, hpart]

/-- The port is the six fields of the layout, the last one highest (R92). -/
theorem framePort_eq_fields (s : State) :
    s.framePort = (s.frame.readLE 12 2 ++ s.frame.readLE 11 1 ++ s.frame.readLE 10 1 ++ s.frame.readLE 8 2 ++
      s.frame.readLE 4 4 ++ s.frame.readLE 0 4 : BitVec (8 * 2 + 8 * 1 + 8 * 1 + 8 * 2 + 8 * 4 + 8 * 4)) := by
  have spd : s.frame.readLE 11 3 = (s.frame.readLE 12 2 ++ s.frame.readLE 11 1 : BitVec (8 * 2 + 8 * 1)) :=
    s.frame.readLE_add 11 2 1
  have bat : s.frame.readLE 10 4 = (s.frame.readLE 11 3 ++ s.frame.readLE 10 1 : BitVec (8 * 3 + 8 * 1)) :=
    s.frame.readLE_add 10 3 1
  have hdop : s.frame.readLE 8 6 = (s.frame.readLE 10 4 ++ s.frame.readLE 8 2 : BitVec (8 * 4 + 8 * 2)) :=
    s.frame.readLE_add 8 4 2
  have alt : s.frame.readLE 4 10 = (s.frame.readLE 8 6 ++ s.frame.readLE 4 4 : BitVec (8 * 6 + 8 * 4)) :=
    s.frame.readLE_add 4 6 4
  have lon : s.framePort = (s.frame.readLE 4 10 ++ s.frame.readLE 0 4 : BitVec (8 * 10 + 8 * 4)) :=
    s.frame.readLE_add 0 10 4
  rw [lon, alt, hdop, bat, spd]

/-- An appended vector as a number. -/
theorem toNat_append_eq {n k : Nat} (x : BitVec n) (y : BitVec k) : (x ++ y).toNat = 2 ^ k * x.toNat + y.toNat := by
  rw [BitVec.toNat_append, ← Nat.shiftLeft_add_eq_or_of_lt y.isLt, Nat.shiftLeft_eq, mul_comm]

/-- The port after ENC (R92). -/
theorem framePort_encodedFrame (s : State) :
    State.framePort { s with frame := encodedFrame s } =
      s.spd ++ s.bat ++ s.hdop ++ s.alt.extractLsb' 0 16 ++ s.lon ++ s.lat := by
  rw [framePort_eq_fields]
  simp only [encodedFrame_lat, encodedFrame_lon, encodedFrame_alt, encodedFrame_hdop, encodedFrame_bat, encodedFrame_spd]

/-- The concatenation of R92 as a number. -/
theorem toNat_fields (s : State) :
    (s.spd ++ s.bat ++ s.hdop ++ s.alt.extractLsb' 0 16 ++ s.lon ++ s.lat).toNat =
      s.lat.toNat + 2 ^ 32 * s.lon.toNat + 2 ^ 64 * (s.alt.extractLsb' 0 16).toNat + 2 ^ 80 * s.hdop.toNat +
      2 ^ 88 * s.bat.toNat + 2 ^ 96 * s.spd.toNat := by
  simp only [toNat_append_eq]
  ring

/-- A field of the record is its slice of the port (R92). -/
theorem framePort_slice (s : State) {k j : Nat} (h : k + j ≤ 14) :
    s.framePort.extractLsb' (8 * k) (8 * j) = s.frame.readLE k j := by
  have part := s.frame.extractLsb'_readLE_part 0 h
  rwa [Nat.zero_add] at part

/-- Settles O40: the port by its six fields, and each field by its slice. -/
theorem framePortClosedForm : Obligations.FramePortClosedForm := by
  refine ⟨fun s => ⟨_, rfl, framePort_encodedFrame s, ?_⟩, fun s => ⟨_, rfl, ?_⟩⟩
  · exact (congrArg BitVec.toNat (framePort_encodedFrame s)).trans (toNat_fields s)
  · have slice {k j : Nat} (h : k + j ≤ 14) : s.frame.readLE k j = s.framePort.extractLsb' (8 * k) (8 * j) :=
      (framePort_slice s h).symm
    exact ⟨slice (by decide), slice (by decide), congrArg (sext 32) (slice (by decide)), slice (by decide),
      slice (by decide), slice (by decide)⟩

end Sys2Proof.Machine

/-! The division that rounds toward zero (spec 00_scope.md R9) and what the spec infers of it (41_quantize.md R107, R108):
everything by the remainder that the quotient leaves. -/

namespace Sys2Proof.Machine

/-- Two remainders of one dividend, both smaller than the divisor and of the dividend's sign, differ by less than the
divisor, so the quotients are equal. -/
theorem TruncatedQuotient.unique {a : Int} {d : Nat} {q q' : Int} (h : TruncatedQuotient a d q)
    (h' : TruncatedQuotient a d q') : q = q' := by
  obtain ⟨r, eq, small, nonneg, nonpos⟩ := h
  obtain ⟨r', eq', small', nonneg', nonpos'⟩ := h'
  rw [abs_lt] at small small'
  have hdvd : (d : Int) ∣ r' - r := ⟨q - q', by linarith⟩
  have hclose : |r' - r| < d := by
    rw [abs_lt]
    omega
  have hr : r' - r = 0 := Int.eq_zero_of_abs_lt_dvd hdvd hclose
  have hd : (d : Int) ≠ 0 := by omega
  exact mul_right_cancel₀ hd (by linarith)

/-- The quotient of R9 is the one with such a remainder. -/
theorem truncatedQuotient_iff (a : Int) {d : Nat} (hd : 1 ≤ d) (q : Int) : TruncatedQuotient a d q ↔ q = tdiv a d :=
  ⟨fun h => h.unique (tdiv_truncated a hd), fun h => h ▸ tdiv_truncated a hd⟩

/-- Settles O43: the two cases of the definition are the floor of the exact quotient, and the remainder makes it unique. -/
theorem divisionRoundsTowardZero : Obligations.DivisionRoundsTowardZero := by
  intro a d hd
  refine ⟨fun ha => ?_, fun ha => ?_, truncatedQuotient_iff a hd⟩
  · rw [Rat.floor_intCast_div_natCast, tdiv, if_pos ha]
  · rw [← Int.cast_neg, Rat.floor_intCast_div_natCast, tdiv, if_neg (Int.not_le.mpr ha)]

/-- The quotient of the negated dividend leaves the negated remainder. -/
theorem TruncatedQuotient.neg {a : Int} {d : Nat} {q : Int} (h : TruncatedQuotient a d q) :
    TruncatedQuotient (-a) d (-q) := by
  obtain ⟨r, eq, small, nonneg, nonpos⟩ := h
  exact ⟨-r, by rw [eq]; ring, by rwa [abs_neg], fun h => by have := nonpos (by omega); omega,
    fun h => by have := nonneg (by omega); omega⟩

/-- Division is odd (R107). -/
theorem tdiv_neg (a : Int) {d : Nat} (hd : 1 ≤ d) : tdiv (-a) d = -tdiv a d :=
  ((truncatedQuotient_iff (-a) hd _).mp (tdiv_truncated a hd).neg).symm

/-- Division by 1 changes nothing (R107). -/
theorem tdiv_one (a : Int) : tdiv a 1 = a :=
  ((truncatedQuotient_iff a le_rfl a).mp ⟨0, by simp⟩).symm

/-- The quotient is never larger than the dividend (R107). -/
theorem abs_tdiv_le (a : Int) {d : Nat} (hd : 1 ≤ d) : |tdiv a d| ≤ |a| := by
  obtain ⟨pos, neg⟩ := tdiv_between a hd
  rcases Int.lt_or_le a 0 with ha | ha
  · rw [abs_of_nonpos (neg ha).2, abs_of_neg ha]
    exact neg_le_neg (neg ha).1
  · rw [abs_of_nonneg (pos ha).1, abs_of_nonneg ha]
    exact (pos ha).2

/-- The quotient is 0 where the dividend is its own remainder (R107). -/
theorem tdiv_eq_zero_iff (a : Int) {d : Nat} (hd : 1 ≤ d) : tdiv a d = 0 ↔ |a| < d := by
  rw [eq_comm, ← truncatedQuotient_iff a hd 0]
  constructor
  · rintro ⟨r, eq, small, -⟩
    rwa [show a = r by omega]
  · exact fun h => ⟨a, by simp, h, id, id⟩

/-- The quotients of a 32-bit operand by the largest divisor (R107). -/
theorem tdiv_maxDivisor {a : Int} (hlo : -2147483648 ≤ a) (hhi : a ≤ 2147483647) :
    tdiv a 2147483647 = if a = -2147483648 ∨ a = -2147483647 then -1 else if a = 2147483647 then 1 else 0 := by
  unfold tdiv
  split_ifs <;> omega

/-- Settles O44: each identity by the quotient's remainder, the largest divisor by the operand's range. -/
theorem divisionIdentities : Obligations.DivisionIdentities :=
  ⟨fun a _ hd => ⟨tdiv_neg a hd, tdiv_one a, abs_tdiv_le a hd, tdiv_eq_zero_iff a hd⟩,
    fun w => tdiv_maxDivisor (BitVec.le_toInt w) (Int.le_of_lt_add_one (BitVec.toInt_lt (x := w)))⟩

/-- The exact quotient differs from the truncated one by the remainder's share of the divisor: less than one unit, and on
the side of the dividend's sign (R108). -/
theorem TruncatedQuotient.error {a : Int} {d : Nat} {q : Int} (h : TruncatedQuotient a d q) :
    (0 ≤ a → 0 ≤ (a : ℚ) / d - q ∧ (a : ℚ) / d - q < 1) ∧ (a < 0 → -1 < (a : ℚ) / d - q ∧ (a : ℚ) / d - q ≤ 0) := by
  obtain ⟨r, eq, small, nonneg, nonpos⟩ := h
  rw [abs_lt] at small
  have hd : (0 : ℚ) < d := by exact_mod_cast (show (0 : Int) < d by omega)
  have share : (a : ℚ) / d - q = r / d := by
    rw [eq]
    push_cast
    field_simp
    ring
  rw [share, le_div_iff₀ hd, div_lt_iff₀ hd, lt_div_iff₀ hd, div_le_iff₀ hd, zero_mul, one_mul, neg_one_mul]
  obtain ⟨low, high⟩ := small
  exact ⟨fun ha => ⟨mod_cast nonneg ha, mod_cast high⟩, fun ha => ⟨mod_cast low, mod_cast nonpos ha.le⟩⟩

/-- Settles O45: the register each of the three writes is a truncated quotient of the operand. -/
theorem quantisationErrorBelowOneUnit : Obligations.QuantisationErrorBelowOneUnit :=
  fun w s => ⟨⟨_, rfl, (quantiseSigned_truncated s.config.degDiv w).error⟩,
    ⟨_, rfl, (quantiseSigned_truncated s.config.degDiv w).error⟩,
    ⟨_, rfl, (quantiseSigned_truncated s.config.altDiv w).error⟩⟩

end Sys2Proof.Machine

/-! Runs (spec 70_reset_and_hazards.md R183; 60_exceptions.md R141, R146): every presented input takes one step, and its
command word decides the response and the recorded fault. -/

namespace Sys2Proof.Machine

/-- The induction along what is presented: a claim about a state with nothing presented, carried back over one step. -/
theorem presented_induction {P : State → Prop} (nothing : ∀ s, s.pending = [] → P s)
    (back : ∀ s t x rest, s.pending = x :: rest → step s = .next t → t.pending = rest → P t → P s) (s : State) : P s := by
  generalize hp : s.pending = inputs
  induction inputs generalizing s with
  | nil => exact nothing s hp
  | cons x rest ih =>
    obtain ⟨t, ht⟩ := step_completes (s := s) (by simp [hp])
    have htp : t.pending = rest := by rw [step_pending ht, hp, List.tail_cons]
    exact back s t x rest hp ht htp (ih t htp)

/-- Settles O46: one step for one input, as long as inputs are presented. -/
theorem everyPresentedCommandCompletes : Obligations.EveryPresentedCommandCompletes := by
  refine presented_induction (fun s hp => ?_) (fun s t x rest hp ht htp ih => ?_)
  · rw [hp]
    exact ⟨rfl, rfl, hp, step_of_nothing hp⟩
  · rw [htp] at ih
    obtain ⟨shown, run, empty, ended⟩ := ih
    rw [hp, List.length_cons, observations_succ ht, core_run_succ ht, stateAfter_succ ht, List.length_cons]
    exact ⟨congrArg Nat.succ shown, run, empty, ended⟩

/-- Settles O41: a byte of the port is a byte of the read it is, and the port is shown after every step of the run. -/
theorem framePortShowsTheFrame : Obligations.FramePortShowsTheFrame := by
  refine ⟨fun s a ha => ?_, fun s => ?_⟩
  · have byte := s.frame.extractLsb'_readLE 0 14 ha
    rwa [Nat.zero_add] at byte
  · refine presented_induction (P := fun s => ∀ k, k < s.pending.length →
      ((observations s.pending.length s)[k]?).map (fun o => o.frame) = some (stateAfter (k + 1) s).framePort)
      (fun s hp k hk => ?_) (fun s t x rest hp ht htp ih k hk => ?_) s
    · rw [hp] at hk
      cases hk
    · rw [htp] at ih
      rw [hp] at hk ⊢
      rw [List.length_cons, observations_succ ht, stateAfter_succ ht]
      cases k with
      | zero => rfl
      | succ k => exact ih k (Nat.lt_of_succ_lt_succ hk)

/-! The response of a step, by its command word. -/

/-- A step with no reset answers OK exactly when its command word is one of the map (R66, R145). -/
theorem step_ok_iff {s t : State} {x : PortInput} {rest : List PortInput} (hp : s.pending = x :: rest)
    (hx : x.reset = false) (h : step s = .next t) : t.resp = .ok ↔ legalWord x.command.cw = true := by
  rw [← exists_decode_legal_iff]
  cases hd : decode x.command with
  | legal i =>
    obtain ⟨u, run, ok⟩ := exec_answers_ok (wellFormed_of_decode_eq_legal hd) s.afterFetch
    cases (step_of_legal hp hx hd ▸ h).symm.trans run
    exact iff_of_true ok ⟨i, rfl⟩
  | illegal e =>
    cases (step_of_illegal hp hx hd).symm.trans h
    exact iff_of_false (errorResp_ne_ok e) nofun

/-- What a step with no reset shows of its response. -/
theorem observe_ok_iff {s t : State} {x : PortInput} {rest : List PortInput} (hp : s.pending = x :: rest)
    (hx : x.reset = false) (h : step s = .next t) :
    (∃ d, (observe s t).response = some (.ok, d)) ↔ legalWord x.command.cw = true := by
  have shown : (observe s t).response = some (t.resp, t.rdata) := by simp [observe, hp, hx]
  rw [← step_ok_iff hp hx h, shown]
  simp

/-- A run with no reset answers OK throughout exactly when the command words it has come to are all of the map. -/
theorem observations_ok_iff (k : Nat) (s : State) (hx : ∀ x ∈ s.pending, x.reset = false) :
    (∀ o ∈ observations k s, ∃ d, o.response = some (.ok, d)) ↔
      ∀ x ∈ s.pending.take k, legalWord x.command.cw = true := by
  induction k generalizing s with
  | zero => simp [observations]
  | succ k ih =>
    cases hp : s.pending with
    | nil => simp [observations, step_of_nothing hp]
    | cons x rest =>
      rw [hp, List.forall_mem_cons] at hx
      obtain ⟨t, ht⟩ := step_completes (s := s) (by simp [hp])
      have htp : t.pending = rest := by rw [step_pending ht, hp, List.tail_cons]
      rw [observations_succ ht, List.take_succ_cons, List.forall_mem_cons, List.forall_mem_cons,
        observe_ok_iff hp hx.1 ht, ih t (htp ▸ hx.2), htp]

/-- Settles O47: with legal words only, every step the run comes to answers OK. -/
theorem legalRunsAnswerOk : Obligations.LegalRunsAnswerOk :=
  fun s h k => (observations_ok_iff k s fun x hx => (h x hx).1).mpr
    fun x hx => (h x (List.mem_of_mem_take hx)).2

/-! The faults recorded beside a run. -/

/-- An input that presents an illegal command word and no reset: the ones with a fault (R141, R170). -/
def failing (x : PortInput) : Bool := !x.reset && !legalWord x.command.cw

/-- The fault of a step names its command word where the word fails, and there is none elsewhere. -/
theorem commandFault_command {s : State} {x : PortInput} {rest : List PortInput} (hp : s.pending = x :: rest) :
    s.commandFault.toList.map Fault.command = if failing x = true then [some x.command.cw] else [] := by
  cases hx : x.reset with
  | true => simp [commandFault_of_reset hp hx, failing, hx]
  | false =>
    cases hd : decode x.command with
    | legal i =>
      have hlegal := (exists_decode_legal_iff x.command).mp ⟨i, hd⟩
      simp [commandFault_of_legal hp hx hd, failing, hx, hlegal]
    | illegal e =>
      have hillegal : legalWord x.command.cw = false := by
        rw [← Bool.not_eq_true, ← exists_decode_legal_iff, hd]
        nofun
      simp [commandFault_of_illegal hp hx hd, failing, hx, hillegal]

/-- The faults of a whole run name its failing command words in order. -/
theorem faults_commands (s : State) :
    (faults s.pending.length s).map Fault.command = (s.pending.filter failing).map (fun x => some x.command.cw) := by
  refine presented_induction (P := fun s => (faults s.pending.length s).map Fault.command =
    (s.pending.filter failing).map (fun x => some x.command.cw)) (fun s hp => ?_) (fun s t x rest hp ht htp ih => ?_) s
  · rw [hp]
    rfl
  · rw [htp] at ih
    rw [hp, List.length_cons, faults_succ ht, List.map_append, ih, commandFault_command hp, List.filter_cons]
    split <;> rfl

/-- A run with no reset records no fault exactly when its command words are all of the map. -/
theorem faults_eq_nil_iff (s : State) (hx : ∀ x ∈ s.pending, x.reset = false) :
    faults s.pending.length s = [] ↔ ∀ x ∈ s.pending, legalWord x.command.cw = true := by
  rw [← List.map_eq_nil_iff (f := Fault.command), faults_commands, List.map_eq_nil_iff, List.filter_eq_nil_iff]
  exact forall₂_congr fun x hmem => by simp [failing, hx x hmem]

/-- Settles O55: the faults by the failing words, and with no reset the responses by the same words. -/
theorem recordedFaultsNameTheIllegalCommands : Obligations.RecordedFaultsNameTheIllegalCommands := by
  refine ⟨faults_commands, fun s hx => ⟨faults_eq_nil_iff s hx, ?_⟩⟩
  rw [faults_eq_nil_iff s hx, observations_ok_iff _ s hx, List.take_length]

end Sys2Proof.Machine

/-! Runs of command sequences (spec 42_record_access.md R123; 20_memory.md R48; 70_reset_and_hazards.md R172;
30_encoding.md R69): what is written is read back, and what the pseudo-instructions load and read. -/

namespace Sys2Proof.Machine

/-- The first step of a run of any commands does the same whatever comes after. -/
theorem exists_step_present (s : State) (c : Command) :
    ∃ t : State, ∀ cs, step (s.present (c :: cs)) = .next (t.present cs) := by
  cases hd : decode c with
  | legal i =>
    obtain ⟨t, run⟩ := exec_completes i s
    exact ⟨t, step_present_cons hd run⟩
  | illegal e => exact ⟨s.raise e, fun cs => step_of_illegal (x := commandInput c) rfl rfl hd⟩

/-- A run of one sequence and another is the one run after the other. -/
theorem State.runFinal_append (s : State) (cs ds : List Command) : s.runFinal (cs ++ ds) = (s.runFinal cs).runFinal ds := by
  induction cs generalizing s with
  | nil => rfl
  | cons c cs ih =>
    obtain ⟨t, ht⟩ := exists_step_present s c
    have first (es : List Command) : s.runFinal (c :: es) = t.runFinal es := stateAfter_succ (ht es) es.length
    rw [List.cons_append, first, first, ih]

/-- A value written, kept by the commands between and read at the end: the run answers with it. -/
theorem State.rdata_write_between_read {s t : State} {write read : Command} {iw ir : Instr} {value : State → Word}
    (hw : decode write = .legal iw) (writes : exec iw s = .next t) (hr : decode read = .legal ir)
    (reads : ∀ u, exec ir u = .next (u.answer (value u))) (between : List Command) :
    (s.runFinal (write :: between ++ [read])).rdata = value (t.runFinal between) := by
  rw [State.runFinal_append, State.runFinal_cons hw writes, State.runFinal_cons hr (reads _), State.runFinal_nil]
  rfl

@[simp] theorem State.reg_present (s : State) (cs : List Command) (r : Reg) : (s.present cs).reg r = s.reg r := by
  cases r <;> rfl

/-- What holds of every command of a sequence on the port holds of every input presented. -/
theorem forall_present {Q : PortInput → Prop} {cs : List Command} (h : ∀ c ∈ cs, Q ⟨false, c⟩) (s : State) :
    ∀ x ∈ (s.present cs).pending, Q x :=
  List.forall_mem_map.mpr h

/-- A run of commands that leave a register alone keeps it. -/
theorem State.reg_runFinal {r : Reg} {cs : List Command} (h : ∀ c ∈ cs, KeepsReg r ⟨false, c⟩) (s : State) :
    (s.runFinal cs).reg r = s.reg r :=
  (stateAfter_keeps_reg r (s.present cs) (forall_present h s) cs.length).trans (s.reg_present cs r)

/-- A run of commands that leave a frame byte alone keeps it. -/
theorem State.frameByte_runFinal {b : Nat} {cs : List Command} (h : ∀ c ∈ cs, KeepsByte b ⟨false, c⟩) (s : State) :
    (s.runFinal cs).frameByte b = s.frameByte b :=
  stateAfter_keeps_frameByte b (s.present cs) (forall_present h s) cs.length

/-! Narrowed and zero-extended again: the low slice with zeros above it (R8). -/

theorem zext_byte (v : Byte) : zext 32 v = 0#24 ++ v := BitVec.setWidth_eq_append (by decide)

theorem zext_half (v : Half) : zext 32 v = 0#16 ++ v := BitVec.setWidth_eq_append (by decide)

theorem trunc_byte (w : Word) : trunc 8 w = w.extractLsb' 0 8 := BitVec.setWidth_eq_extractLsb' (by decide)

theorem trunc_half (w : Word) : trunc 16 w = w.extractLsb' 0 16 := BitVec.setWidth_eq_extractLsb' (by decide)

/-- Settles O49: WRR writes the register, the commands between keep it, RDR answers with it. -/
theorem registerReadReturnsLatestWrite : Obligations.RegisterReadReturnsLatestWrite := by
  intro r w w0 between s keeps
  rw [State.rdata_write_between_read (decode_wrr (legalIndex_regIndex r) w) (execWrr_regIndex r w s)
    (decode_rdr (legalIndex_regIndex r) w0) (execRdr_regIndex r), State.reg_runFinal keeps, State.reg_answer,
    State.reg_setReg_self]
  cases r with
  | lat | lon | alt => rfl
  | hdop | bat => exact (zext_byte _).trans (congrArg _ (trunc_byte w))
  | spd => exact (zext_half _).trans (congrArg _ (trunc_half w))

/-- Settles O50: WRB writes the byte, the commands between keep it, RDB answers with it. -/
theorem frameReadReturnsLatestWrite : Obligations.FrameReadReturnsLatestWrite := by
  intro a w w0 between s ha keeps
  have legal := legalAddress_of_le ha
  have inFrame : a.toNat < 14 := legalAddress_eq_true.mp legal
  rw [State.rdata_write_between_read (decode_wrb legal w) (execWrb_legal inFrame w s)
    (decode_rdb legal w0) (execRdb_legal inFrame), State.frameByte_runFinal keeps, State.frameByte_answer,
    State.frameByte_setFrameByte_self, zext_byte, byteOperand, trunc_byte]

/-- The frame ENC leaves of a record that is zero but for the battery, over an empty frame buffer. -/
theorem read_encodedFrame_battery {s : State} {b : Byte} (record : SameRecord { State.reset with bat := b } s)
    (frame : s.frame = []) (a : Nat) : (encodedFrame s).read a = if a = 11 then b else 0 := by
  obtain ⟨hlat, hlon, halt, hhdop, hbat, hspd⟩ := record
  rw [read_encodedFrame, hlat, hlon, halt, hhdop, hbat, hspd, frame]
  by_cases ha : a = 11
  · subst ha
    rfl
  · simp [State.reset, ha, Memory.unlisted]

/-- A run of ENC alone, read at an address. -/
theorem State.frameByte_runFinal_enc (s : State) (a : Nat) :
    (s.runFinal [⟨0x50, 0⟩]).frameByte a = (encodedFrame s).read a := by
  have run : exec .enc s = .next (State.answer { s with frame := encodedFrame s } 0) := rfl
  rw [State.runFinal_cons (decode_enc 0) run]
  rfl

/-- Settles O51: the battery is the one field of the record that is not zero, and byte 11 is its byte. -/
theorem firstFrameAfterReset : Obligations.FirstFrameAfterReset := by
  refine ⟨fun w a => ?_, fun a => ?_⟩
  · have hbat : decode ⟨0x14, w⟩ = .legal (.wrr (regIndex .bat) w) :=
      decode_wrr (legalIndex_regIndex .bat) w
    rw [State.runFinal_cons hbat (execWrr_regIndex .bat w State.reset), State.frameByte_runFinal_enc, ← trunc_byte]
    exact read_encodedFrame_battery ⟨rfl, rfl, rfl, rfl, rfl, rfl⟩ rfl a
  · rw [State.frameByte_runFinal_enc]
    exact (read_encodedFrame_battery (b := 0) ⟨rfl, rfl, rfl, rfl, rfl, rfl⟩ rfl a).trans (ite_self _)

/-! The assembler's lines in a run. -/

/-- A run of an assembler line and more. -/
theorem State.runFinal_line {s t : State} {l : AsmLine} (h : exec l.instr s = .next t) (ls : List AsmLine) :
    s.runFinal ((l :: ls).map assemble) = t.runFinal (ls.map assemble) :=
  State.runFinal_cons (decode_assemble l) h _

/-- The low bits of a value written with 32 (R7, R8). -/
theorem trunc_bits {n : Nat} (hn : n ≤ 32) (z : Int) : trunc n (bits 32 z) = bits n z := by
  have hdvd : ((2 ^ n : Nat) : Int) ∣ ((2 ^ 32 : Nat) : Int) := Int.natCast_dvd_natCast.mpr (pow_dvd_pow 2 hn)
  apply BitVec.eq_of_toNat_eq
  rw [BitVec.toNat_setWidth, BitVec.toNat_ofInt, BitVec.toNat_ofInt, ← Int.emod_emod_of_dvd z hdvd,
    Int.toNat_emod (Int.emod_nonneg z (by decide)) (Int.natCast_nonneg _), Int.toNat_natCast]

theorem exec_line_wrr (r : Reg) (z : Int) (s : State) :
    exec (AsmLine.wrr r z).instr s = .next ((s.setReg r (bits (regWidth r) z)).answer 0) := by
  have hop : registerOperand r (bits 32 z) = bits (regWidth r) z := trunc_bits (by cases r <;> decide) z
  rw [← hop]
  exact execWrr_regIndex r _ s

theorem exec_line_rdr (r : Reg) (s : State) :
    exec (AsmLine.rdr r).instr s = .next (s.answer (zext 32 (s.reg r))) :=
  execRdr_regIndex r s

theorem exec_line_wrb (a : Fin 14) (z : Int) (s : State) :
    exec (AsmLine.wrb a z).instr s = .next ((s.setFrameByte a.val (bits 8 z)).answer 0) := by
  have run := execWrb_legal ((toNat_address a).symm ▸ a.isLt) (bits 32 z) s
  rwa [toNat_address, byteOperand, trunc_bits (by decide)] at run

theorem exec_line_rdb (a : Fin 14) (s : State) :
    exec (AsmLine.rdb a).instr s = .next (s.answer (zext 32 (s.frameByte a.val))) := by
  have run := execRdb_legal ((toNat_address a).symm ▸ a.isLt) s
  rwa [toNat_address] at run

/-- LDREC as a run: six writes, each to a register of its own (R69). -/
theorem State.runFinal_ldrec (s : State) (a b c d e f : Int) :
    s.runFinal (Pseudo.ldrec a b c d e f).commands =
      { s with
        lat := bits 32 a, lon := bits 32 b, alt := bits 32 c, hdop := bits 8 d, bat := bits 8 e, spd := bits 16 f
        resp := .ok, rdata := 0, pending := [] } := by
  rw [Pseudo.commands, Pseudo.expand, State.runFinal_line (exec_line_wrr .lat a s),
    State.runFinal_line (exec_line_wrr .lon b _), State.runFinal_line (exec_line_wrr .alt c _),
    State.runFinal_line (exec_line_wrr .hdop d _), State.runFinal_line (exec_line_wrr .bat e _),
    State.runFinal_line (exec_line_wrr .spd f _)]
  rfl

/-- A run of byte stores leaves the record alone, and at each address the value last stored there: here one value per
address, in whatever order and however often. -/
theorem State.runFinal_stores (v : Fin 14 → Int) (as : List (Fin 14)) (s : State) :
    SameRecord s (s.runFinal ((as.map fun a => AsmLine.wrb a (v a)).map assemble)) ∧
    ∀ k : Fin 14, (s.runFinal ((as.map fun a => AsmLine.wrb a (v a)).map assemble)).frameByte k.val =
      if k ∈ as then bits 8 (v k) else s.frameByte k.val := by
  induction as generalizing s with
  | nil => exact ⟨⟨rfl, rfl, rfl, rfl, rfl, rfl⟩, fun _ => rfl⟩
  | cons a as ih =>
    rw [List.map_cons, State.runFinal_line (exec_line_wrb a (v a) s)]
    obtain ⟨record, bytes⟩ := ih ((s.setFrameByte a.val (bits 8 (v a))).answer 0)
    refine ⟨record, fun k => ?_⟩
    rw [bytes, State.frameByte_answer, State.frameByte_setFrameByte]
    by_cases hk : k = a
    · subst hk
      simp
    · simp [hk, Fin.val_inj]

/-- A run of lines that only read answers OK with what they read, in order: no read changes what another finds. -/
theorem State.responses_of_reads {α : Type} {line : α → AsmLine} {value : State → α → Word}
    (reads : ∀ s x, exec (line x).instr s = .next (s.answer (value s x)))
    (keeps : ∀ s d x, value (State.answer s d) x = value s x) (xs : List α) (s : State) :
    (s.runObservations ((xs.map line).map assemble)).map (fun o => o.response) =
      xs.map (fun x => some (.ok, value s x)) := by
  induction xs generalizing s with
  | nil => rfl
  | cons x xs ih =>
    rw [List.map_cons, List.map_cons, State.runObservations_cons (decode_assemble (line x)) (reads s x), List.map_cons, ih,
      List.map_cons]
    simp [keeps]

/-- Settles O53: the loads by their final state, the reads by what each line answers. -/
theorem pseudoInstructionsLoadAndRead : Obligations.PseudoInstructionsLoadAndRead := by
  refine ⟨fun s a b c d e f => ?_, fun s v => ?_, fun s => ?_, fun s => ?_⟩
  · rw [State.runFinal_ldrec]
    exact ⟨rfl, rfl, rfl, rfl, rfl, rfl, fun _ => rfl⟩
  · obtain ⟨record, bytes⟩ := s.runFinal_stores (fun a => v[a]) (List.finRange 14)
    exact ⟨fun k => (bytes k).trans (if_pos (List.mem_finRange k)), record⟩
  · refine (State.responses_of_reads (fun s r => exec_line_rdr r s) (fun s d r => by rw [State.reg_answer])
      [.lat, .lon, .alt, .hdop, .bat, .spd] s).trans ?_
    rw [← zext_byte, ← zext_byte, ← zext_half]
    rfl
  · refine (State.responses_of_reads (fun s a => exec_line_rdb a s) (fun _ _ _ => rfl) (List.finRange 14) s).trans ?_
    simp only [zext_byte]
    rfl

end Sys2Proof.Machine
